-- ==== Sys2Proof/Syntax.lean ====
section
/-!
DEFINITION. The twenty operations of the FXU (spec/30_encoding.md R53, R54), one constructor per row
of spec/opcode_table.json. Every command word carries both fractional-bit counts (R50), so every
constructor does; the counts are plain numbers (R7, R52), and WellFormed.lean holds their range.
-/

namespace Sys2Proof

/-- A decoded command word: the operation, `f` (the fractional-bit count `F` of the left operand and of
the result) and `fb` (the count `FB` of the right operand), R7 and R50. -/
inductive Instr where
  /-- Count leading zeros (R77). -/
  | clz (f fb : Nat)
  /-- Shift right by a signed amount (R78). -/
  | sshr (f fb : Nat)
  /-- Shift left by a signed amount (R79). -/
  | sshl (f fb : Nat)
  /-- Multiply then shift right (R80). -/
  | mulshr (f fb : Nat)
  /-- Construct from an integer (R90). -/
  | fromint (f fb : Nat)
  /-- Construct from a binary64 value (R94). -/
  | fromflt (f fb : Nat)
  /-- Convert to binary64 (R95). -/
  | toflt (f fb : Nat)
  /-- Convert between fractional-bit counts (R96). -/
  | cvt (f fb : Nat)
  /-- Add with radix-point realignment (R110). -/
  | add (f fb : Nat)
  /-- Subtract with radix-point realignment (R111). -/
  | sub (f fb : Nat)
  /-- Multiply (R112). -/
  | mul (f fb : Nat)
  /-- Divide (R130). -/
  | div (f fb : Nat)
  /-- Negate (R113). -/
  | neg (f fb : Nat)
  /-- Modulo with radix-point realignment (R114). -/
  | mod (f fb : Nat)
  /-- Absolute value (R115). -/
  | abs (f fb : Nat)
  /-- Equal (R151). -/
  | eq (f fb : Nat)
  /-- Less than (R153). -/
  | lt (f fb : Nat)
  /-- Less than or equal (R154). -/
  | le (f fb : Nat)
  /-- Greater than (R155). -/
  | gt (f fb : Nat)
  /-- Greater than or equal (R156). -/
  | ge (f fb : Nat)
deriving DecidableEq, Repr

namespace Instr

/-- The field `F` of the command word (R50). -/
def f : Instr → Nat
  | .clz f _ => f
  | .sshr f _ => f
  | .sshl f _ => f
  | .mulshr f _ => f
  | .fromint f _ => f
  | .fromflt f _ => f
  | .toflt f _ => f
  | .cvt f _ => f
  | .add f _ => f
  | .sub f _ => f
  | .mul f _ => f
  | .div f _ => f
  | .neg f _ => f
  | .mod f _ => f
  | .abs f _ => f
  | .eq f _ => f
  | .lt f _ => f
  | .le f _ => f
  | .gt f _ => f
  | .ge f _ => f

/-- The field `FB` of the command word (R50). -/
def fb : Instr → Nat
  | .clz _ fb => fb
  | .sshr _ fb => fb
  | .sshl _ fb => fb
  | .mulshr _ fb => fb
  | .fromint _ fb => fb
  | .fromflt _ fb => fb
  | .toflt _ fb => fb
  | .cvt _ fb => fb
  | .add _ fb => fb
  | .sub _ fb => fb
  | .mul _ fb => fb
  | .div _ fb => fb
  | .neg _ fb => fb
  | .mod _ fb => fb
  | .abs _ fb => fb
  | .eq _ fb => fb
  | .lt _ fb => fb
  | .le _ fb => fb
  | .gt _ fb => fb
  | .ge _ fb => fb

/-- The mnemonic of R53. -/
def mnemonic : Instr → String
  | .clz _ _ => "CLZ"
  | .sshr _ _ => "SSHR"
  | .sshl _ _ => "SSHL"
  | .mulshr _ _ => "MULSHR"
  | .fromint _ _ => "FROMINT"
  | .fromflt _ _ => "FROMFLT"
  | .toflt _ _ => "TOFLT"
  | .cvt _ _ => "CVT"
  | .add _ _ => "ADD"
  | .sub _ _ => "SUB"
  | .mul _ _ => "MUL"
  | .div _ _ => "DIV"
  | .neg _ _ => "NEG"
  | .mod _ _ => "MOD"
  | .abs _ _ => "ABS"
  | .eq _ _ => "EQ"
  | .lt _ _ => "LT"
  | .le _ _ => "LE"
  | .gt _ _ => "GT"
  | .ge _ _ => "GE"

end Instr

end Sys2Proof
end

