-- ==== Sys2Proof/WellFormed.lean ====
section
/-!
DEFINITION. Which instructions a command word can carry: each fractional-bit count is a 7-bit unsigned
number (spec/30_encoding.md R50, R52). Every such pair is legal with every operation (R51, R58, R59).
-/

namespace Sys2Proof

/-- The fields fit their 7 bits, 0 to 127 (R7, R50). There is no other condition (R51, R58). -/
def Instr.wellFormed (i : Instr) : Bool := decide (i.f < 128) && decide (i.fb < 128)

end Sys2Proof
end

