-- ==== Sys2Proof/Decode.lean ====
section
/-!
DEFINITION. Decoding a 19-bit command word (spec/30_encoding.md R50 to R53, R57), encoding it, and
assembling its canonical form (R61 to R63). The word arrives on a 19-bit port, so there is no byte
order and no instruction length to find (R50, spec/20_memory.md R41).
-/

namespace Sys2Proof

/-- Why a command word decodes to no operation. -/
inductive DecodeError where
  /-- The `op` field is one of the twelve reserved codes, 0x0F and 0x15 to 0x1F (R57). -/
  | reservedOp (op : Nat)
deriving DecidableEq, Repr

/-- The `op` field, bits 4:0 (R50). -/
def cmdOp (cmd : BitVec 19) : Nat := cmd.toNat % 32

/-- The `F` field, bits 11:5 (R50). -/
def cmdF (cmd : BitVec 19) : Nat := cmd.toNat / 32 % 128

/-- The `FB` field, bits 18:12 (R50). -/
def cmdFB (cmd : BitVec 19) : Nat := cmd.toNat / 4096 % 128

/-- The opcode map (R53): the operation a code selects, or the rejection of a reserved code (R57). -/
def instrOfOp (op f fb : Nat) : Except DecodeError Instr :=
  match op with
  | 0x00 => .ok (.clz f fb)
  | 0x01 => .ok (.sshr f fb)
  | 0x02 => .ok (.sshl f fb)
  | 0x03 => .ok (.mulshr f fb)
  | 0x04 => .ok (.fromint f fb)
  | 0x05 => .ok (.fromflt f fb)
  | 0x06 => .ok (.toflt f fb)
  | 0x07 => .ok (.cvt f fb)
  | 0x08 => .ok (.add f fb)
  | 0x09 => .ok (.sub f fb)
  | 0x0A => .ok (.mul f fb)
  | 0x0B => .ok (.div f fb)
  | 0x0C => .ok (.neg f fb)
  | 0x0D => .ok (.mod f fb)
  | 0x0E => .ok (.abs f fb)
  | 0x10 => .ok (.eq f fb)
  | 0x11 => .ok (.lt f fb)
  | 0x12 => .ok (.le f fb)
  | 0x13 => .ok (.gt f fb)
  | 0x14 => .ok (.ge f fb)
  | r => .error (.reservedOp r)

/-- Decode a command word. Only the `op` field selects the operation (R51). -/
def decode (cmd : BitVec 19) : Except DecodeError Instr :=
  instrOfOp (cmdOp cmd) (cmdF cmd) (cmdFB cmd)

/-- The operation code of an instruction (R53). -/
def Instr.code : Instr → Nat
  | .clz _ _ => 0x00
  | .sshr _ _ => 0x01
  | .sshl _ _ => 0x02
  | .mulshr _ _ => 0x03
  | .fromint _ _ => 0x04
  | .fromflt _ _ => 0x05
  | .toflt _ _ => 0x06
  | .cvt _ _ => 0x07
  | .add _ _ => 0x08
  | .sub _ _ => 0x09
  | .mul _ _ => 0x0A
  | .div _ _ => 0x0B
  | .neg _ _ => 0x0C
  | .mod _ _ => 0x0D
  | .abs _ _ => 0x0E
  | .eq _ _ => 0x10
  | .lt _ _ => 0x11
  | .le _ _ => 0x12
  | .gt _ _ => 0x13
  | .ge _ _ => 0x14

/-- The command word of an instruction, `FB * 4096 + F * 32 + op` (R50). -/
def encode (i : Instr) : BitVec 19 :=
  BitVec.ofNat 19 (i.fb * 4096 + i.f * 32 + i.code)

/-- The instruction that spec/opcode_table.json's numbering gives for `w`: the command word is the low
19 bits, since the port has 19 wires (log entry 8). -/
def decodeTableWord (nbits w : Nat) : Option Instr :=
  match decode (BitVec.ofNat 19 (w % 2 ^ nbits)) with
  | .ok i => some i
  | .error _ => none

/-- Which fractional-bit counts the assembler's text of an operation carries (R61). -/
inductive Suffix where
  /-- No suffix: the operation reads neither count. -/
  | none
  /-- `.F`: the operation reads `F` only. -/
  | f
  /-- `.F.FB`: the operation reads `FB`; MUL and DIV are written so although they read `FB` only. -/
  | fFb
deriving DecidableEq, Repr

/-- The suffix each operation is written with (R55, R61). -/
def Instr.suffix : Instr → Suffix
  | .clz _ _ => .none
  | .sshr _ _ => .none
  | .sshl _ _ => .none
  | .mulshr _ _ => .none
  | .fromint _ _ => .f
  | .fromflt _ _ => .f
  | .toflt _ _ => .f
  | .cvt _ _ => .fFb
  | .add _ _ => .fFb
  | .sub _ _ => .fFb
  | .mul _ _ => .fFb
  | .div _ _ => .fFb
  | .neg _ _ => .none
  | .mod _ _ => .fFb
  | .abs _ _ => .none
  | .eq _ _ => .fFb
  | .lt _ _ => .fFb
  | .le _ _ => .fFb
  | .gt _ _ => .fFb
  | .ge _ _ => .fFb

/-- Assemble an operation with the suffix numbers written after its mnemonic: counts that are not
written assemble as 0 (R61, R63), except that an omitted `.FB` equals `F` (R62 a). Other numbers of
suffixes, and counts above 127, are no text of the spec. -/
def assemble (op : Nat → Nat → Instr) (written : List Nat) : Option Instr :=
  match (op 0 0).suffix, written with
  | .none, [] => some (op 0 0)
  | .f, [f] => if (op f 0).wellFormed then some (op f 0) else none
  | .fFb, [f] => if (op f f).wellFormed then some (op f f) else none
  | .fFb, [f, fb] => if (op f fb).wellFormed then some (op f fb) else none
  | _, _ => none

/-- The assembler's text of an operation without its operands (R61). -/
def Instr.text (i : Instr) : String :=
  match i.suffix with
  | .none => i.mnemonic
  | .f => i.mnemonic ++ "." ++ toString i.f
  | .fFb => i.mnemonic ++ "." ++ toString i.f ++ "." ++ toString i.fb

end Sys2Proof
end

