-- ==== Sys2Proof/Word.lean ====
section
/-!
DEFINITION. The storage widths of a fixed-point value (spec/00_scope.md R5). A value of width `w` is
a `BitVec w`, bit 0 least significant (R10); a width outside the four legal ones cannot be written
down, which is how the model refuses it (spec/93_implementation_defined.md U15).
-/

namespace Sys2Proof

/-- `W`, the storage width of an instance: 8, 16, 32 or 64 bits (R5). -/
inductive Width where
  | w8
  | w16
  | w32
  | w64
deriving DecidableEq, Repr

/-- The number of bits of a storage width (R5). -/
def Width.bits : Width → Nat
  | .w8 => 8
  | .w16 => 16
  | .w32 => 32
  | .w64 => 64

end Sys2Proof
end

