-- ==== Sys2Proof/Config.lean ====
section
/-!
DEFINITION. What is fixed when a block is instantiated (spec/00_scope.md R5, R6) and the six named
instantiations (R8). `W` and `S` are the spec's OPEN parameters (spec/92_eei_decisions.md D27): State
carries them, so every statement about all states holds for all eight instances.
-/

namespace Sys2Proof

/-- The constants of an instance: the storage width `W` (R5) and the signedness `S` (R6; `true` is
`S = 1`, two's complement). They are not reset (R192). -/
structure Params where
  width : Width
  signed : Bool
deriving DecidableEq, Repr

/-- A named instantiation of R8: the constants of the instance and the fractional-bit count that
calling code uses on it. -/
structure NamedFormat where
  label : String
  params : Params
  fracBits : Nat
deriving DecidableEq, Repr

namespace Config

/-- `H = W/2`, the half width of `umulshr` (R5, R73). -/
def half (w : Nat) : Nat := w / 2

/-- `ROUNDS = W - 1`, the refinement rounds of a division (R5, R133). -/
def rounds (w : Nat) : Nat := w - 1

/-- The six named instantiations (R8; spec/90_conflicts.md C1 for "48.16"). -/
def namedFormats : List NamedFormat :=
  [ ⟨"U16_16", ⟨.w32, false⟩, 16⟩,
    ⟨"U32_32", ⟨.w64, false⟩, 32⟩,
    ⟨"U48_16", ⟨.w64, false⟩, 16⟩,
    ⟨"Q16_16", ⟨.w32, true⟩, 16⟩,
    ⟨"Q32_32", ⟨.w64, true⟩, 32⟩,
    ⟨"Q48_16", ⟨.w64, true⟩, 16⟩ ]

/-- The instance that `State.reset` names. DESIGN CHOICE, unsafe (log entry 1): the spec leaves `W`
and `S` to the instantiation and reset does not touch them; the first named format is taken. -/
def resetParams : Params := ⟨.w32, false⟩

end Config

end Sys2Proof
end

