-- ==== Sys2Proof/Machine/Operands.lean ====
section
/-!
DEFINITION. How a `W`-bit vector is read (spec/00_scope.md R11) and the shared functions of
spec/40_bit_primitives.md section 1 (R70 to R76), which every operation is built from. All of them
take the width from their argument's type and, where the rule writes a subscript `S`, the signedness.
-/

namespace Sys2Proof.Machine

/-- `val_S(v)`: the two's-complement value when `S = 1`, the unsigned value otherwise (R11). -/
def val {w : Nat} (signed : Bool) (v : BitVec w) : Int :=
  if signed then v.toInt else (v.toNat : Int)

/-- `trunc_W(n)`: the vector whose unsigned value is `n mod 2^W` (R11). -/
def trunc (w : Nat) (n : Int) : BitVec w := BitVec.ofInt w n

/-- `neg_W(v) = trunc_W(-u(v))` (R11). -/
def negW {w : Nat} (v : BitVec w) : BitVec w := trunc w (-(v.toNat : Int))

/-- `msb`, the vector with only bit `W-1` set (R5, glossary of 00). -/
def msbW (w : Nat) : BitVec w := BitVec.ofNat w (2 ^ (w - 1))

/-- `ssr_S(x, s)`: shift right by a signed amount; a magnitude of `W` or more gives 0 (R70). -/
def ssr {w : Nat} (signed : Bool) (x : BitVec w) (s : Int) : BitVec w :=
  if (w : Int) ≤ s ∨ s ≤ -(w : Int) then BitVec.ofNat w 0
  else if 0 ≤ s then trunc w (val signed x / ((2 ^ s.toNat : Nat) : Int))
  else trunc w ((x.toNat * 2 ^ (-s).toNat : Nat) : Int)

/-- `ssl_S(x, s) = ssr_S(x, -s)` (R71). -/
def ssl {w : Nat} (signed : Bool) (x : BitVec w) (s : Int) : BitVec w := ssr signed x (-s)

/-- `clz(x)`: the zero bits above the highest set bit, `W` for a zero vector (R72). -/
def clz {w : Nat} (x : BitVec w) : Nat :=
  if x.toNat = 0 then w else w - 1 - Nat.log2 x.toNat

/-- The high half of an operand, `u(x[W-1:H])` (R73). -/
def hiHalf {w : Nat} (x : BitVec w) : Nat := x.toNat / 2 ^ Config.half w

/-- The low half of an operand, `u(x[H-1:0])` (R73). -/
def loHalf {w : Nat} (x : BitVec w) : Nat := x.toNat % 2 ^ Config.half w

/-- One shifted partial product of `umulshr`: a product of two halves fits `W` bits and is shifted
logically on its own (R73). -/
def partialTerm (w p : Nat) (s : Int) : Nat := (ssr false (BitVec.ofNat w p) s).toNat

/-- The four shifted partial products of `umulshr`, added before the one reduction (R73). -/
def umulshrSum {w : Nat} (a b : BitVec w) (s : Int) : Nat :=
  partialTerm w (hiHalf a * hiHalf b) (s - (w : Int))
    + partialTerm w (hiHalf a * loHalf b) (s - (Config.half w : Int))
    + partialTerm w (loHalf a * hiHalf b) (s - (Config.half w : Int))
    + partialTerm w (loHalf a * loHalf b) s

/-- `umulshr(a, b, s)`: the unsigned multiply-then-shift without a double-width product (R73). -/
def umulshr {w : Nat} (a b : BitVec w) (s : Int) : BitVec w := BitVec.ofNat w (umulshrSum a b s)

/-- The "is negative" bit of `mag_S(x)` (R74). -/
def isNeg {w : Nat} (signed : Bool) (x : BitVec w) : Bool := signed && x.msb

/-- The magnitude of `mag_S(x)`, an unsigned vector, exact for the most negative value (R74). -/
def mag {w : Nat} (signed : Bool) (x : BitVec w) : BitVec w :=
  if isNeg signed x then negW x else x

/-- Apply the sign that two operands give a result: negated when exactly one is negative (R74, R135). -/
def applySign {w : Nat} (signed : Bool) (a b p : BitVec w) : BitVec w :=
  if isNeg signed a != isNeg signed b then negW p else p

/-- `mulshr_S(a, b, s)`: multiply then shift, with the sign rule (R74). -/
def mulshr {w : Nat} (signed : Bool) (a b : BitVec w) (s : Int) : BitVec w :=
  applySign signed a b (umulshr (mag signed a) (mag signed b) s)

/-- `realign_S(b, FB, F)`: bring a stored integer from `FB` to `F` fractional bits (R76). -/
def realign {w : Nat} (signed : Bool) (b : BitVec w) (fb f : Nat) : BitVec w :=
  ssr signed b ((fb : Int) - (f : Int))

end Sys2Proof.Machine
end

