-- ==== Sys2Proof/Machine/State.lean ====
section
/-!
DEFINITION. The state of the FXU. The block has no registers, no program counter, no memory and no
flags (spec/10_state.md R20 to R25, spec/20_memory.md R40). What it has is its instance constants, the
commands it has accepted and not yet answered (R24), and the ports of its boundary (R26). The host's
side of the ports, and a record of what crossed them, stand beside it as the model's own data.
-/

namespace Sys2Proof.Machine

/-- The fault a response can carry (spec/60_exceptions.md R171). -/
inductive FaultCode where
  /-- Code 1, raised by DIV and MOD (R172). -/
  | divisionByZero
  /-- Code 2, raised by FROMFLT (R173). -/
  | convInvalid
  /-- Code 3, raised by a reserved operation code (R174). -/
  | illegalCommand
deriving DecidableEq, Repr

/-- A command: what is sampled together from the command channel (R26). -/
structure Command (w : Nat) where
  /-- The command word (R50). -/
  cmd : BitVec 19
  /-- The left operand (R28). -/
  a : BitVec w
  /-- The right operand (R28). -/
  b : BitVec w
  /-- The shift amount, two's complement (R30). -/
  s : BitVec 9
  /-- The floating-point operand, binary64 (R29). -/
  fa : BitVec 64
deriving DecidableEq, Repr

/-- The outcome of one command (spec/00_scope.md R13): a result on exactly one of the outputs `y` and
`fy`, or a fault and no value at all (R175). The output an operation does not drive is not part of it
(R55, spec/93_implementation_defined.md U10). -/
inductive Response (w : Nat) where
  /-- An integer result on `y`. -/
  | y (v : BitVec w)
  /-- A floating-point result on `fy`. -/
  | fy (v : BitVec 64)
  /-- A fault, with no value. -/
  | fault (c : FaultCode)
deriving DecidableEq, Repr

/-- What the host drives in one cycle, as sampled at the rising edge that ends it (R26). -/
structure HostIn (w : Nat) where
  rst : Bool
  cmdValid : Bool
  command : Command w
  rspReady : Bool
deriving DecidableEq, Repr

/-- An accepted command that is not answered yet (R24): its outcome, and the cycles that must still
pass before the response can be presented (spec/70_reset_and_hazards.md R199). -/
structure Pending (w : Nat) where
  wait : Nat
  rsp : Response w
deriving DecidableEq, Repr

/-- One block of width `w` together with its host. -/
structure Fxu (w : Nat) where
  /-- The input ports at the coming edge (R26). -/
  inp : HostIn w
  /-- The model's own: what the host drives at the edges after that one, in order (R21). -/
  host : List (HostIn w)
  /-- The model's own: the command presented at the last edge and not accepted, if there was one;
  the host owes it unchanged (R194). -/
  offered : Option (Command w)
  /-- The cycles until `cmd_ready` is 1; the port is 1 exactly when this is 0 (R26, R191). -/
  cmdWait : Nat
  /-- The model's own: the later values `cmdWait` starts from; none left means 0 (log entry 4). -/
  gaps : List Nat
  /-- `LAT` of the commands to come, in order; none left means 0 (R199, log entry 4). -/
  lats : List Nat
  /-- The accepted commands whose responses are not delivered, oldest first (R24). -/
  inflight : List (Pending w)
  /-- The model's own record: the commands accepted since the last reset, oldest first (R45). -/
  accepted : List (Command w)
  /-- The model's own record: the responses delivered since the last reset, oldest first (R45). -/
  delivered : List (Response w)
  /-- The model's own record: every fault outcome met since the machine started, oldest first. The block
  keeps none (R25), and R180 advises a model to; no reset empties it (log entry 15). -/
  faults : List FaultCode
deriving DecidableEq, Repr

/-- The machine: the constants of the instance and the block. -/
structure State where
  params : Params
  fxu : Fxu params.width.bits
deriving DecidableEq, Repr

/-- Why the machine stops with a fault: for no reason. No input makes the block hang or stop
responding (spec/93_implementation_defined.md after its table, R197); a fault of the spec is a
response, after which the block goes on (R178, R179), so the model takes it in a next state. -/
inductive Fault : Type
deriving DecidableEq, Repr

/-- Why a step is refused. -/
inductive Refusal where
  /-- An instruction without a meaning, by its mnemonic. Raised by no arm of `exec`: all twenty
  operations have their meaning. Safe. -/
  | notModelled (mnemonic : String)
  /-- The host withdrew or changed a command it had offered and that was not accepted, outside a reset
  cycle. Raised by `step` (R194, U16: "`refuse` to state claims about it"). Safe. -/
  | commandNotHeld
deriving DecidableEq, Repr

/-- `W` as a number of bits. -/
abbrev State.w (s : State) : Nat := s.params.width.bits

/-- `S` (R6). -/
abbrev State.signed (s : State) : Bool := s.params.signed

/-- The command on the command channel (R26). -/
abbrev State.command (s : State) : Command s.w := s.fxu.inp.command

/-- The port `a`. -/
abbrev State.a (s : State) : BitVec s.w := s.command.a

/-- The port `b`. -/
abbrev State.b (s : State) : BitVec s.w := s.command.b

/-- A host that presents no command, asserts no reset and takes any response (log entry 2). -/
def HostIn.idle (w : Nat) : HostIn w :=
  { rst := false, cmdValid := false, command := ⟨0, 0, 0, 0, 0⟩, rspReady := true }

/-- A block at its start, right after reset (R31, R190 to R192): nothing in flight, so `rsp_valid` is 0, and
empty records. The values the spec leaves open are those of log entries 2 and 4. -/
def Fxu.afterReset (w : Nat) : Fxu w :=
  { inp := HostIn.idle w, host := [], offered := none, cmdWait := 0, gaps := [], lats := [],
    inflight := [], accepted := [], delivered := [], faults := [] }

/-- The instance `p` right after reset (R31). -/
def State.resetFor (p : Params) : State := ⟨p, Fxu.afterReset p.width.bits⟩

/-- The machine right after reset (R31, R192), on the instance that log entry 1 names. -/
def State.reset : State := State.resetFor Config.resetParams

end Sys2Proof.Machine
end

