-- ==== Sys2Proof/Machine/Flags.lean ====
section
/-!
DEFINITION. The FXU has no flag register (spec/10_state.md R25). What stands in its place: the `fault`
field of a response (spec/60_exceptions.md R171) and the truth value of a comparison, which is an
ordinary result on `y` (spec/44_compare.md R150).
-/

namespace Sys2Proof.Machine

/-- The number of a fault on the 2-bit `fault` port (R171). -/
def FaultCode.code : FaultCode → BitVec 2
  | .divisionByZero => 1
  | .convInvalid => 2
  | .illegalCommand => 3

/-- The `fault` field of a response: 0 when the operation completed (R171). -/
def Response.faultField {w : Nat} : Response w → BitVec 2
  | .y _ => 0
  | .fy _ => 0
  | .fault c => c.code

/-- The fault of a response, if it carries one (R171). -/
def Response.faultOf {w : Nat} : Response w → Option FaultCode
  | .y _ => none
  | .fy _ => none
  | .fault c => some c

/-- A comparison's result on `y`: 1 when the relation holds, else 0, zero-extended (R150). -/
def truth (w : Nat) (p : Bool) : BitVec w := if p then BitVec.ofNat w 1 else BitVec.ofNat w 0

end Sys2Proof.Machine
end

