-- ==== Sys2Proof/Machine/Ops.lean ====
section
/-!
DEFINITION. The named operations over the block: answering a command, raising a fault, and what one
rising edge of the clock does to the two channels (spec/10_state.md R26, spec/20_memory.md R45,
spec/70_reset_and_hazards.md R190 to R199). A meaning calls only `answer`, `answerFloat` and `raise`.

There is no return from a fault to model: nothing was entered (spec/60_exceptions.md R179).
-/

namespace Sys2Proof.Machine

/-- The shift operand, `sgn9(s)` (R30). -/
def State.shift (s : State) : Int := s.command.s.toInt

/-- The port `fa` (R29). -/
def State.floatOperand (s : State) : BitVec 64 := s.command.fa

/-- Accept the presented command with outcome `r`: it joins the in-flight commands, last, with its own
latency (R24, R199), and the record of accepted commands. The outcome is a function of the command
alone, so it may be settled at acceptance (R46, log entry 3). -/
def Fxu.respond {w : Nat} (f : Fxu w) (r : Response w) : Fxu w :=
  { f with
    inflight := f.inflight ++ [⟨f.lats.headD 0, r⟩]
    lats := f.lats.tail
    accepted := f.accepted ++ [f.inp.command] }

/-- The state after the presented command is accepted with outcome `r`. -/
abbrev State.respond (s : State) (r : Response s.w) : State := ⟨s.params, s.fxu.respond r⟩

/-- Complete with the integer result `v` (R13). -/
def State.answer (s : State) (v : BitVec s.w) : Host.Outcome State Fault Refusal :=
  .next (s.respond (.y v))

/-- Complete with the floating-point result `v` (R13, R95). -/
def State.answerFloat (s : State) (v : BitVec 64) : Host.Outcome State Fault Refusal :=
  .next (s.respond (.fy v))

/-- Take a fault (R178): the response of this command, in its normal slot, carries the code and no
value. No state is saved, no mode changes, control goes nowhere, and the block goes on (R179). -/
def State.raise (s : State) (c : FaultCode) : Host.Outcome State Fault Refusal :=
  .next (s.respond (.fault c))

/-- The port `cmd_ready` (R26, R191). -/
def Fxu.cmdReady {w : Nat} (f : Fxu w) : Bool := f.cmdWait == 0

/-- A command is accepted at the coming edge (R26), never in a reset cycle (R190). -/
def Fxu.accepts {w : Nat} (f : Fxu w) : Bool := !f.inp.rst && f.inp.cmdValid && f.cmdReady

/-- The response presented in this cycle, if there is one: the oldest undelivered one (R45), once its
latency has passed. Read after this cycle's acceptance, since `LAT = 0` presents a response in the
cycle of acceptance (R199). -/
def Fxu.presented {w : Nat} (f : Fxu w) : Option (Response w) :=
  match f.inflight with
  | [] => none
  | p :: _ => if p.wait = 0 then some p.rsp else none

/-- The port `rsp_valid` (R26). -/
def Fxu.rspValid {w : Nat} (f : Fxu w) : Bool := f.presented.isSome

/-- The port `y`: no value while `rsp_valid` is 0 (R31), beside a fault (R175), or when the operation
does not drive it (R55). -/
def Fxu.yPort {w : Nat} (f : Fxu w) : Option (BitVec w) :=
  match f.presented with
  | some (.y v) => some v
  | _ => none

/-- The port `fy`, with no value where `yPort` has none for the like reasons. -/
def Fxu.fyPort {w : Nat} (f : Fxu w) : Option (BitVec 64) :=
  match f.presented with
  | some (.fy v) => some v
  | _ => none

/-- The port `fault` (R171): no value while `rsp_valid` is 0 (R31). -/
def Fxu.faultPort {w : Nat} (f : Fxu w) : Option (BitVec 2) :=
  f.presented.map Response.faultField

/-- The presented response is delivered at the coming edge (R26). -/
def Fxu.takes {w : Nat} (f : Fxu w) : Bool := f.rspValid && f.inp.rspReady

/-- What the coming edge delivers: the presented response if the host takes it, else nothing (R26). -/
def Fxu.taken {w : Nat} (f : Fxu w) : List (Response w) :=
  if f.inp.rspReady then f.presented.toList else []

/-- The undelivered commands after the edge: the taken one is gone, and one cycle of every other's
latency has passed (R199). A response not taken stays as it is (R194). -/
def Fxu.nextInflight {w : Nat} (f : Fxu w) : List (Pending w) :=
  (if f.takes then f.inflight.tail else f.inflight).map fun p => ⟨p.wait - 1, p.rsp⟩

/-- What the host drives in the next cycle: the head of its plan. A host with no plan left asserts no
reset, takes responses, and presents a command only if it still owes one (R194, log entry 2). -/
def Fxu.nextInp {w : Nat} (f : Fxu w) : HostIn w :=
  match f.host with
  | h :: _ => h
  | [] => { f.inp with
      rst := false
      cmdValid := f.inp.cmdValid && !f.accepts
      rspReady := true }

/-- The command that the host owes after the edge: presented and not accepted (R194). -/
def Fxu.nextOffered {w : Nat} (f : Fxu w) : Option (Command w) :=
  if f.inp.cmdValid && !f.accepts then some f.inp.command else none

/-- A cycle in which no reset is sampled ends: the presented response is delivered if it is taken, time
passes, and the host drives its next inputs (R26, R194, R199). -/
def Fxu.edge {w : Nat} (f : Fxu w) : Fxu w :=
  { f with
    inp := f.nextInp
    host := f.host.tail
    offered := f.nextOffered
    cmdWait := if f.cmdReady then f.gaps.headD 0 else f.cmdWait - 1
    gaps := if f.cmdReady then f.gaps.tail else f.gaps
    inflight := f.nextInflight
    delivered := f.delivered ++ f.taken
    faults := f.faults ++ f.taken.filterMap Response.faultOf }

/-- A cycle in which `rst` is sampled 1 ends (R190): nothing is accepted, every undelivered command is
discarded and so `rsp_valid` is 0 from the next cycle on, and the two records that R45 counts start again
(R191, log entry 5). The record of faults goes on: it keeps the fault outcomes that this edge delivers or
discards (R180, log entry 15). How long `cmd_ready` then stays 0 is open, and finite (R31, R191). -/
def Fxu.resetEdge {w : Nat} (f : Fxu w) : Fxu w :=
  { f with
    inp := f.nextInp
    host := f.host.tail
    offered := f.nextOffered
    cmdWait := f.gaps.headD 0
    gaps := f.gaps.tail
    inflight := []
    accepted := []
    delivered := []
    faults := f.faults ++ f.inflight.filterMap fun p => p.rsp.faultOf }

/-- The state after an edge without reset. -/
abbrev State.edge (s : State) : State := ⟨s.params, s.fxu.edge⟩

/-- The state after a reset edge: the instance constants are not reset (R192). -/
abbrev State.resetEdge (s : State) : State := ⟨s.params, s.fxu.resetEdge⟩

/-- The host still presents the command it owes, unchanged, if it owes one (R194). -/
def Fxu.held {w : Nat} (f : Fxu w) : Bool :=
  match f.offered with
  | none => true
  | some c => f.inp.cmdValid && decide (f.inp.command = c)

/-- End the cycle of an accepted command: the edge follows its meaning. -/
def finishCycle (o : Host.Outcome State Fault Refusal) : Host.Outcome State Fault Refusal :=
  match o with
  | .next t => .next t.edge
  | .fault r => .fault r
  | .refused r => .refused r

end Sys2Proof.Machine
end

