-- ==== Sys2Proof/Machine/Arith.lean ====
section
/-!
DEFINITION. Arithmetic: ADD, SUB, MUL, NEG, MOD, ABS (spec/42_arithmetic.md R110 to R115). Overflow wraps
and is not reported (R120).
-/

namespace Sys2Proof.Machine

/-- ADD: the right operand is realigned first (R110). -/
def execAdd (f fb : Nat) (s : State) : Host.Outcome State Fault Refusal :=
  s.answer (trunc s.w ((s.a.toNat : Int) + ((realign s.signed s.b fb f).toNat : Int)))

/-- SUB (R111). -/
def execSub (f fb : Nat) (s : State) : Host.Outcome State Fault Refusal :=
  s.answer (trunc s.w ((s.a.toNat : Int) - ((realign s.signed s.b fb f).toNat : Int)))

/-- MUL: the shift is `FB` whatever `F` is, so `F` is not read (R112, R55). -/
def execMul (fb : Nat) (s : State) : Host.Outcome State Fault Refusal :=
  s.answer (mulshr s.signed s.a s.b (fb : Int))

/-- NEG: the two's-complement negate, on signed and unsigned instances alike (R113). -/
def execNeg (s : State) : Host.Outcome State Fault Refusal :=
  s.answer (negW s.a)

/-- The quotient of `x` by `m` truncated toward zero (R114). -/
def truncQuotient (x m : Int) : Int := x.sign * m.sign * ((x.natAbs / m.natAbs : Nat) : Int)

/-- The value of MOD for a realigned divisor `bb`, or none where it raises DivisionByZero (R114, R172). -/
def modulo {w : Nat} (signed : Bool) (a bb : BitVec w) : Option (BitVec w) :=
  if bb.toNat = 0 then none
  else
    some (trunc w (val signed a - truncQuotient (val signed a) (val signed bb) * val signed bb))

/-- MOD (R114). -/
def execMod (f fb : Nat) (s : State) : Host.Outcome State Fault Refusal :=
  match modulo s.signed s.a (realign s.signed s.b fb f) with
  | some v => s.answer v
  | none => s.raise .divisionByZero

/-- ABS: the most negative value wraps to itself (R115); on an unsigned instance the operand is
returned as it is. -/
def execAbs (s : State) : Host.Outcome State Fault Refusal :=
  s.answer (mag s.signed s.a)

end Sys2Proof.Machine
end

