-- ==== Sys2Proof/Machine/Bits.lean ====
section
/-!
DEFINITION. The bit primitives as operations: CLZ, SSHR, SSHL, MULSHR (spec/40_bit_primitives.md R77 to
R80). None reads `F` or `FB` (spec/30_encoding.md R55), none can fault.
-/

namespace Sys2Proof.Machine

/-- CLZ: `a` is read as unsigned whatever `S` is; the count is zero-extended (R77). -/
def execClz (s : State) : Host.Outcome State Fault Refusal :=
  s.answer (BitVec.ofNat s.w (clz s.a))

/-- SSHR (R78). -/
def execSshr (s : State) : Host.Outcome State Fault Refusal :=
  s.answer (ssr s.signed s.a s.shift)

/-- SSHL (R79). -/
def execSshl (s : State) : Host.Outcome State Fault Refusal :=
  s.answer (ssl s.signed s.a s.shift)

/-- MULSHR (R80). -/
def execMulshr (s : State) : Host.Outcome State Fault Refusal :=
  s.answer (mulshr s.signed s.a s.b s.shift)

end Sys2Proof.Machine
end

