-- ==== Sys2Proof/Machine/Compare.lean ====
section
/-!
DEFINITION. Comparisons: EQ, LT, LE, GT, GE (spec/44_compare.md R150 to R156). None can fault.
-/

namespace Sys2Proof.Machine

/-- EQ's relation: each operand, brought to the other's fractional-bit count, reproduces the other
(R151). -/
def equalRel {w : Nat} (signed : Bool) (f fb : Nat) (a b : BitVec w) : Bool :=
  decide (ssr signed b ((fb : Int) - (f : Int)) = a) && decide (ssr signed a ((f : Int) - (fb : Int)) = b)

/-- The integral part of a stored integer at `f` fractional bits, the floor of its real value (R152). -/
def integral {w : Nat} (signed : Bool) (f : Nat) (x : BitVec w) : BitVec w := ssr signed x (f : Int)

/-- The fractional remainder (R152). -/
def remainder {w : Nat} (signed : Bool) (f : Nat) (x : BitVec w) : BitVec w :=
  trunc w ((x.toNat : Int) - ((ssl signed (integral signed f x) (f : Int)).toNat : Int))

/-- The remainder moved so that its radix point is at bit `W` (R152, D21). -/
def fraction {w : Nat} (signed : Bool) (f : Nat) (x : BitVec w) : BitVec w :=
  ssl false (remainder signed f x) ((w : Int) - (f : Int))

/-- LT's relation: integral parts first, on a tie the aligned remainders as unsigned numbers (R153). -/
def lessRel {w : Nat} (signed : Bool) (f fb : Nat) (a b : BitVec w) : Bool :=
  if val signed (integral signed f a) ≠ val signed (integral signed fb b) then
    decide (val signed (integral signed f a) < val signed (integral signed fb b))
  else decide ((fraction signed f a).toNat < (fraction signed fb b).toNat)

/-- LE's relation: as LT with `<=` on a tie (R154). -/
def lessEqRel {w : Nat} (signed : Bool) (f fb : Nat) (a b : BitVec w) : Bool :=
  if val signed (integral signed f a) ≠ val signed (integral signed fb b) then
    decide (val signed (integral signed f a) < val signed (integral signed fb b))
  else decide ((fraction signed f a).toNat ≤ (fraction signed fb b).toNat)

/-- GT's relation (R155). -/
def greaterRel {w : Nat} (signed : Bool) (f fb : Nat) (a b : BitVec w) : Bool :=
  if val signed (integral signed f a) ≠ val signed (integral signed fb b) then
    decide (val signed (integral signed fb b) < val signed (integral signed f a))
  else decide ((fraction signed fb b).toNat < (fraction signed f a).toNat)

/-- GE's relation: as GT with `>=` on a tie (R156). -/
def greaterEqRel {w : Nat} (signed : Bool) (f fb : Nat) (a b : BitVec w) : Bool :=
  if val signed (integral signed f a) ≠ val signed (integral signed fb b) then
    decide (val signed (integral signed fb b) < val signed (integral signed f a))
  else decide ((fraction signed fb b).toNat ≤ (fraction signed f a).toNat)

/-- EQ (R151). -/
def execEq (f fb : Nat) (s : State) : Host.Outcome State Fault Refusal :=
  s.answer (truth s.w (equalRel s.signed f fb s.a s.b))

/-- LT (R153). -/
def execLt (f fb : Nat) (s : State) : Host.Outcome State Fault Refusal :=
  s.answer (truth s.w (lessRel s.signed f fb s.a s.b))

/-- LE (R154). -/
def execLe (f fb : Nat) (s : State) : Host.Outcome State Fault Refusal :=
  s.answer (truth s.w (lessEqRel s.signed f fb s.a s.b))

/-- GT (R155). -/
def execGt (f fb : Nat) (s : State) : Host.Outcome State Fault Refusal :=
  s.answer (truth s.w (greaterRel s.signed f fb s.a s.b))

/-- GE (R156). -/
def execGe (f fb : Nat) (s : State) : Host.Outcome State Fault Refusal :=
  s.answer (truth s.w (greaterEqRel s.signed f fb s.a s.b))

end Sys2Proof.Machine
end

