-- ==== Sys2Proof/Machine/Float.lean ====
section
/-!
DEFINITION. Rounding half away from zero and the binary64 format (spec/41_construct_convert.md R91 to
R93; the layout is the spec's own passage GK1, the rounding of the encoder GK2). Every number met here
is an integer times a power of two, so all of it is exact integer arithmetic (R94, D19).
-/

namespace Sys2Proof.Machine

/-- What a binary64 vector stands for (R92): `finite neg m e` is `(-1)^neg * m * 2^e`. -/
inductive FloatClass where
  | finite (neg : Bool) (m : Nat) (e : Int)
  | infinity (neg : Bool)
  | nan
deriving DecidableEq, Repr

/-- The sign bit, bit 63 (R92). -/
def floatSign (x : BitVec 64) : Bool := x.msb

/-- The biased exponent, bits 62:52 (R92). -/
def floatExp (x : BitVec 64) : Nat := x.toNat / 2 ^ 52 % 2 ^ 11

/-- The trailing significand, bits 51:0 (R92). -/
def floatFrac (x : BitVec 64) : Nat := x.toNat % 2 ^ 52

/-- Decode a binary64 vector: zero and subnormal, infinity and NaN, normal (R92). -/
def floatDecode (x : BitVec 64) : FloatClass :=
  if floatExp x = 0 then .finite (floatSign x) (floatFrac x) (-1074)
  else if floatExp x = 2047 then
    if floatFrac x = 0 then .infinity (floatSign x) else .nan
  else .finite (floatSign x) (2 ^ 52 + floatFrac x) ((floatExp x : Int) - 1075)

/-- `floor(m * 2^k + 1/2)` for a natural number `m` (the magnitude half of R91). -/
def roundMag (m : Nat) (k : Int) : Nat :=
  if 0 ≤ k then m * 2 ^ k.toNat else (m + 2 ^ ((-k).toNat - 1)) / 2 ^ (-k).toNat

/-- `rha((-1)^neg * m * 2^k)`: round half away from zero (R91). -/
def rha (neg : Bool) (m : Nat) (k : Int) : Int :=
  if neg then -(roundMag m k : Int) else (roundMag m k : Int)

/-- The 53-bit significand of a natural number `n` with `2^l <= n < 2^(l+1)`: `n / 2^(l-52)` rounded to
an integer with ties to even (R93). It is `2^53` when the rounding carries. -/
def roundSignificand (n l : Nat) : Nat :=
  if l ≤ 52 then n * 2 ^ (52 - l)
  else
    let d := l - 52
    let q := n / 2 ^ d
    let r := n % 2 ^ d
    if 2 ^ d < 2 * r ∨ (2 ^ d = 2 * r ∧ q % 2 = 1) then q + 1 else q

/-- Pack sign, biased exponent and trailing significand (R92). -/
def floatPack (neg : Bool) (ex : Int) (fr : Nat) : BitVec 64 :=
  BitVec.ofNat 64 ((if neg then 2 ^ 63 else 0) + ex.toNat * 2 ^ 52 + fr)

/-- Encode `n / 2^F` as binary64: `+0.0` for 0, else normal, rounded to nearest with ties to even (R93).
The exponent is that of the rounded significand. -/
def floatEncode (n : Int) (f : Nat) : BitVec 64 :=
  if n = 0 then 0
  else
    let l := Nat.log2 n.natAbs
    let q := roundSignificand n.natAbs l
    let e := (l : Int) - (f : Int)
    if q = 2 ^ 53 then floatPack (decide (n < 0)) (e + 1 + 1023) 0
    else floatPack (decide (n < 0)) (e + 1023) (q - 2 ^ 52)

end Sys2Proof.Machine
end

