-- ==== Sys2Proof/Machine/Convert.lean ====
section
/-!
DEFINITION. Construction and conversion: FROMINT, FROMFLT, TOFLT, CVT (spec/41_construct_convert.md R90,
R94 to R96).
-/

namespace Sys2Proof.Machine

/-- FROMINT: the integer shifted left by `F` (R90). -/
def execFromint (f : Nat) (s : State) : Host.Outcome State Fault Refusal :=
  s.answer (ssl s.signed s.a (f : Int))

/-- The least stored integer of a `w`-bit format (R94). -/
def minStored (w : Nat) (signed : Bool) : Int := if signed then -((2 ^ (w - 1) : Nat) : Int) else 0

/-- The greatest stored integer of a `w`-bit format (R94). -/
def maxStored (w : Nat) (signed : Bool) : Int :=
  if signed then ((2 ^ (w - 1) : Nat) : Int) - 1 else ((2 ^ w : Nat) : Int) - 1

/-- The value of FROMFLT, or none where it raises ConvInvalid (R94, R173). -/
def fromFloat (w : Nat) (signed : Bool) (f : Nat) (x : BitVec 64) : Option (BitVec w) :=
  match floatDecode x with
  | .infinity _ => none
  | .nan => none
  | .finite neg m e =>
    if minStored w signed ≤ rha neg m (e + (f : Int)) ∧ rha neg m (e + (f : Int)) ≤ maxStored w signed then
      some (trunc w (rha neg m (e + (f : Int))))
    else none

/-- FROMFLT (R94). -/
def execFromflt (f : Nat) (s : State) : Host.Outcome State Fault Refusal :=
  match fromFloat s.w s.signed f s.floatOperand with
  | some v => s.answer v
  | none => s.raise .convInvalid

/-- TOFLT: the result is on `fy` (R95). -/
def execToflt (f : Nat) (s : State) : Host.Outcome State Fault Refusal :=
  s.answerFloat (floatEncode (val s.signed s.a) f)

/-- CVT: the operand is on port `b`, at `FB` (R96). -/
def execCvt (f fb : Nat) (s : State) : Host.Outcome State Fault Refusal :=
  s.answer (realign s.signed s.b fb f)

end Sys2Proof.Machine
end

