-- ==== Sys2Proof/Machine/Divide.lean ====
section
/-!
DEFINITION. DIV, the reciprocal-refinement divider (spec/43_divide.md R130; R131 to R135 explain its five
steps).
-/

namespace Sys2Proof.Machine

/-- The reciprocal estimate `r` and the error term `e` (R132). -/
structure Recip (w : Nat) where
  r : BitVec w
  e : BitVec w
deriving DecidableEq, Repr

/-- The normalised divisor `d`: its top bit is set (step 1, R131). -/
def normalised {w : Nat} (mb : BitVec w) : BitVec w := ssl false mb (clz mb : Int)

/-- The seed: `r` is 1.0, `e` is the complement of `d` in its own format (step 2, R132). -/
def seed {w : Nat} (d : BitVec w) : Recip w := ⟨msbW w, ssl false (negW d) 1⟩

/-- One round, `r = r + r*e; e = e*e`; both products use the `e` of the start of the round (step 3,
R130, R133). -/
def refineOnce {w : Nat} (p : Recip w) : Recip w :=
  ⟨BitVec.ofNat w (p.r.toNat + (umulshr p.r p.e ((w : Int) + 1)).toNat),
    umulshr p.e p.e ((w : Int) + 1)⟩

/-- `n` rounds of refinement (R133). -/
def refine {w : Nat} : Nat → Recip w → Recip w
  | 0, p => p
  | n + 1, p => refine n (refineOnce p)

/-- The final shift, `2W - 1 - FB - lz - c`, which may be negative (step 4, R134). -/
def divShift {w : Nat} (mb : BitVec w) (fb : Nat) : Int :=
  2 * (w : Int) - 1 - (fb : Int) - (clz mb : Int) - (if normalised mb = msbW w then 1 else 0)

/-- The magnitude of the quotient of the magnitude `ma` by a nonzero magnitude `mb` (steps 1 to 4). -/
def quotientMag {w : Nat} (ma mb : BitVec w) (fb : Nat) : BitVec w :=
  umulshr (refine (Config.rounds w) (seed (normalised mb))).r ma (divShift mb fb)

/-- The value of DIV, or none where it raises DivisionByZero; the sign comes back last (step 5, R135). -/
def divide {w : Nat} (signed : Bool) (fb : Nat) (a b : BitVec w) : Option (BitVec w) :=
  if (mag signed b).toNat = 0 then none
  else some (applySign signed a b (quotientMag (mag signed a) (mag signed b) fb))

/-- DIV: the quotient is at the dividend's `F` whatever it is, so `F` is not read (R130, R55). -/
def execDiv (fb : Nat) (s : State) : Host.Outcome State Fault Refusal :=
  match divide s.signed fb s.a s.b with
  | some v => s.answer v
  | none => s.raise .divisionByZero

end Sys2Proof.Machine
end

