-- ==== Sys2Proof/Machine/Dispatch.lean ====
section
/-!
DEFINITION. The meaning of each operation (spec/30_encoding.md R53). A meaning is given exactly the
fields that R55 marks "read"; a field it does not read is not passed to it (R56).
-/

namespace Sys2Proof.Machine

def exec (i : Instr) (s : State) : Host.Outcome State Fault Refusal :=
  match i with
  | .clz _ _ => Sys2Proof.Machine.execClz s
  | .sshr _ _ => Sys2Proof.Machine.execSshr s
  | .sshl _ _ => Sys2Proof.Machine.execSshl s
  | .mulshr _ _ => Sys2Proof.Machine.execMulshr s
  | .fromint f _ => Sys2Proof.Machine.execFromint f s
  | .fromflt f _ => Sys2Proof.Machine.execFromflt f s
  | .toflt f _ => Sys2Proof.Machine.execToflt f s
  | .cvt f fb => Sys2Proof.Machine.execCvt f fb s
  | .add f fb => Sys2Proof.Machine.execAdd f fb s
  | .sub f fb => Sys2Proof.Machine.execSub f fb s
  | .mul _ fb => Sys2Proof.Machine.execMul fb s
  | .div _ fb => Sys2Proof.Machine.execDiv fb s
  | .neg _ _ => Sys2Proof.Machine.execNeg s
  | .mod f fb => Sys2Proof.Machine.execMod f fb s
  | .abs _ _ => Sys2Proof.Machine.execAbs s
  | .eq f fb => Sys2Proof.Machine.execEq f fb s
  | .lt f fb => Sys2Proof.Machine.execLt f fb s
  | .le f fb => Sys2Proof.Machine.execLe f fb s
  | .gt f fb => Sys2Proof.Machine.execGt f fb s
  | .ge f fb => Sys2Proof.Machine.execGe f fb s

end Sys2Proof.Machine
end

