-- ==== Sys2Proof/Machine/Step.lean ====
section
/-!
DEFINITION. One step: one rising edge of `clk` (spec/10_state.md R26, spec/70_reset_and_hazards.md R190).
-/

namespace Sys2Proof.Machine

/-- A reset cycle discards everything in flight (R190), whatever the command channel carries. Otherwise
a host that broke its duty is refused (R194, U16); a command that is accepted (R26) is decoded and runs,
or takes IllegalCommand if its operation code is reserved, before any operand is looked at (R174, R177);
and the cycle ends. -/
def step (s : State) : Host.Outcome State Fault Refusal :=
  if s.fxu.inp.rst then .next s.resetEdge
  else if s.fxu.held then
    if s.fxu.accepts then
      match decode s.command.cmd with
      | .ok i => finishCycle (exec i s)
      | .error _ => finishCycle (s.raise .illegalCommand)
    else .next s.edge
  else .refused .commandNotHeld

/-- `s` with the command word `w` presented so that the next edge accepts it: `rst` is 0, `cmd_valid` and
`cmd_ready` are 1, and the host owes no other command. The operand ports stay as they are. The port has
19 wires and takes the low 19 bits of the table's word (log entry 8). -/
def State.withFetchWord (s : State) (nbits w : Nat) : State :=
  { s with
    fxu :=
      { s.fxu with
        inp :=
          { s.fxu.inp with
            rst := false
            cmdValid := true
            command := { s.fxu.inp.command with cmd := BitVec.ofNat 19 (w % 2 ^ nbits) } }
        offered := none
        cmdWait := 0 } }

end Sys2Proof.Machine
end

