-- ==== Sys2Proof/Safety.lean ====
section
/-!
DEFINITION. The vocabulary of the claims: the outcome of a command as the one function of
spec/10_state.md R27, what a run has met (spec/60_exceptions.md R180, spec/70_reset_and_hazards.md R195),
the order of responses, and the values of fixed-point and binary64 vectors as rational numbers. Where a
rule of spec/ is to be stated of a meaning, the right-hand side is written here with the library's own
shifts and integer arithmetic, apart from the model's shared functions.
-/

namespace Sys2Proof.Machine

/-! ## Outcomes and runs -/

/-- The response that an operation gives to a command, a function of `S`, the operation with its counts
and the operand ports (R13, R27). -/
def result {w : Nat} (signed : Bool) (i : Instr) (c : Command w) : Response w :=
  match i with
  | .clz _ _ => .y (BitVec.ofNat w (clz c.a))
  | .sshr _ _ => .y (ssr signed c.a c.s.toInt)
  | .sshl _ _ => .y (ssl signed c.a c.s.toInt)
  | .mulshr _ _ => .y (mulshr signed c.a c.b c.s.toInt)
  | .fromint f _ => .y (ssl signed c.a (f : Int))
  | .fromflt f _ => ((fromFloat w signed f c.fa).map Response.y).getD (.fault .convInvalid)
  | .toflt f _ => .fy (floatEncode (val signed c.a) f)
  | .cvt f fb => .y (realign signed c.b fb f)
  | .add f fb => .y (trunc w ((c.a.toNat : Int) + ((realign signed c.b fb f).toNat : Int)))
  | .sub f fb => .y (trunc w ((c.a.toNat : Int) - ((realign signed c.b fb f).toNat : Int)))
  | .mul _ fb => .y (mulshr signed c.a c.b (fb : Int))
  | .div _ fb => ((divide signed fb c.a c.b).map Response.y).getD (.fault .divisionByZero)
  | .neg _ _ => .y (negW c.a)
  | .mod f fb =>
    ((modulo signed c.a (realign signed c.b fb f)).map Response.y).getD (.fault .divisionByZero)
  | .abs _ _ => .y (mag signed c.a)
  | .eq f fb => .y (truth w (equalRel signed f fb c.a c.b))
  | .lt f fb => .y (truth w (lessRel signed f fb c.a c.b))
  | .le f fb => .y (truth w (lessEqRel signed f fb c.a c.b))
  | .gt f fb => .y (truth w (greaterRel signed f fb c.a c.b))
  | .ge f fb => .y (truth w (greaterEqRel signed f fb c.a c.b))

/-- R27's `exec`: the outcome of a command, a function of `W`, `S` and the command alone. -/
def outcome {w : Nat} (signed : Bool) (c : Command w) : Response w :=
  match decode c.cmd with
  | .error _ => .fault .illegalCommand
  | .ok i => result signed i c

/-- The index and the code of the first fault in a record of responses: what ends a run early (R195).
DESIGN CHOICE: the index counts from 0, so the response that R191 calls number 1 has index 0; R195 does not
say where it starts (log entry 16). -/
def firstFault {w : Nat} : List (Response w) → Option (Nat × FaultCode)
  | [] => none
  | r :: rs =>
    match r.faultOf with
    | some c => some (0, c)
    | none => (firstFault rs).map fun p => (p.1 + 1, p.2)

/-- `k` steps, stopping at the first stop: the host's `Host.Core.run` of this machine. -/
def runSteps : Nat → State → Host.Outcome State Fault Refusal
  | 0, s => .next s
  | k + 1, s =>
    match step s with
    | .next t => runSteps k t
    | .fault r => .fault r
    | .refused r => .refused r

/-- No fault outcome has been met since the machine started, whatever resets came between (R180). -/
def State.clean (s : State) : Bool := s.fxu.faults.isEmpty

/-- The block is idle: every accepted command is answered and taken (R195). -/
def State.idle (s : State) : Bool := s.fxu.inflight.isEmpty

/-- A sequence of commands has completed normally: everything accepted is answered, and no fault outcome
was met (R180, R195). -/
def State.completedNormally (s : State) : Bool := s.idle && s.clean

/-- The record of faults holds every fault delivered since the last reset, in order and last (R180). -/
def State.FaultsRecorded (s : State) : Prop :=
  s.fxu.delivered.filterMap Response.faultOf <:+ s.fxu.faults

/-- The order of responses (R45): what was delivered, followed by what is still in flight, is the list of
the outcomes of the accepted commands, in the order of their acceptance. -/
def State.InOrder (s : State) : Prop :=
  s.fxu.delivered ++ s.fxu.inflight.map Pending.rsp = s.fxu.accepted.map (outcome s.signed)

end Sys2Proof.Machine

namespace Sys2Proof

/-! ## What each operation reads (R55) -/

/-- The operation reads the port `a`. -/
def Instr.readsA : Instr → Bool
  | .fromflt _ _ => false
  | .cvt _ _ => false
  | _ => true

/-- The operation reads the port `b`. -/
def Instr.readsB : Instr → Bool
  | .mulshr _ _ | .cvt _ _ | .add _ _ | .sub _ _ | .mul _ _ | .div _ _ | .mod _ _ => true
  | .eq _ _ | .lt _ _ | .le _ _ | .gt _ _ | .ge _ _ => true
  | _ => false

/-- The operation reads the port `s`. -/
def Instr.readsS : Instr → Bool
  | .sshr _ _ | .sshl _ _ | .mulshr _ _ => true
  | _ => false

/-- The operation reads the port `fa`. -/
def Instr.readsFa : Instr → Bool
  | .fromflt _ _ => true
  | _ => false

/-- The operation reads the field `F`. -/
def Instr.readsF : Instr → Bool
  | .fromint _ _ | .fromflt _ _ | .toflt _ _ | .cvt _ _ | .add _ _ | .sub _ _ | .mod _ _ => true
  | .eq _ _ | .lt _ _ | .le _ _ | .gt _ _ | .ge _ _ => true
  | _ => false

/-- The operation reads the field `FB`. -/
def Instr.readsFB : Instr → Bool
  | .cvt _ _ | .add _ _ | .sub _ _ | .mul _ _ | .div _ _ | .mod _ _ => true
  | .eq _ _ | .lt _ _ | .le _ _ | .gt _ _ | .ge _ _ => true
  | _ => false

end Sys2Proof

namespace Sys2Proof.Machine

/-- Two commands agree on every port that the operation `i` reads (R55). -/
def agreeOn {w : Nat} (i : Instr) (c d : Command w) : Prop :=
  (i.readsA = true → c.a = d.a) ∧ (i.readsB = true → c.b = d.b)
    ∧ (i.readsS = true → c.s = d.s) ∧ (i.readsFa = true → c.fa = d.fa)

/-- Two instructions are the same operation and agree on every field it reads (R55). -/
def sameRead (i j : Instr) : Prop :=
  i.code = j.code ∧ (i.readsF = true → i.f = j.f) ∧ (i.readsFB = true → i.fb = j.fb)

/-! ## Values -/

/-- `real_F(v) = val_S(v) / 2^F` (R11). -/
def realOf {w : Nat} (signed : Bool) (f : Nat) (v : BitVec w) : ℚ := (val signed v : ℚ) / 2 ^ f

/-- The fractional-bit counts for which the results agree with real-number order (R7). -/
def countInRange (w : Nat) (signed : Bool) (f : Nat) : Prop := if signed then f ≤ w - 1 else f ≤ w

/-- The real value of a binary64 vector; none for an infinity or a NaN (R92). -/
def floatReal (x : BitVec 64) : Option ℚ :=
  match floatDecode x with
  | .finite neg m e => some ((if neg then -1 else 1) * (m : ℚ) * (2 : ℚ) ^ e)
  | .infinity _ => none
  | .nan => none

/-- `rha(x)` on rational numbers (R91). -/
def rhaReal (x : ℚ) : Int := if 0 ≤ x then ⌊x + 1 / 2⌋ else -⌊-x + 1 / 2⌋

/-- The shifter's contract (R70) with the library's own shifts. -/
def nativeShift {w : Nat} (signed : Bool) (x : BitVec w) (k : Int) : BitVec w :=
  if w ≤ k.natAbs then 0
  else if 0 ≤ k then (if signed then x.sshiftRight k.toNat else x >>> k.toNat)
  else x <<< (-k).toNat

/-- The integral part of R152. -/
def nativeIntegral {w : Nat} (signed : Bool) (f : Nat) (x : BitVec w) : BitVec w :=
  nativeShift signed x (f : Int)

/-- The aligned fractional remainder of R152. -/
def nativeFraction {w : Nat} (signed : Bool) (f : Nat) (x : BitVec w) : BitVec w :=
  nativeShift false (x - nativeShift signed (nativeIntegral signed f x) (-(f : Int)))
    ((f : Int) - (w : Int))

/-- The magnitude of a stored integer as a number (R74). -/
def magNat {w : Nat} (signed : Bool) (x : BitVec w) : Nat := (val signed x).natAbs

/-- Exactly one of two stored integers is negative (R74, R135). -/
def signsDiffer {w : Nat} (signed : Bool) (a b : BitVec w) : Bool :=
  decide (val signed a < 0) != decide (val signed b < 0)

/-- A number with the sign of a product or quotient, wrapped to `w` bits (R74, R135). -/
def withSign {w : Nat} (signed : Bool) (a b : BitVec w) (p : Nat) : BitVec w :=
  if signsDiffer signed a b then -(BitVec.ofNat w p) else BitVec.ofNat w p

/-- `t(p, k)` of R75: `p` shifted right by `k` places, left if `k` is negative, without a width. -/
def shiftedTerm (p : Nat) (k : Int) : Nat :=
  if 0 ≤ k then p / 2 ^ k.toNat else p * 2 ^ (-k).toNat

/-- The four partial products of two `w`-bit numbers, each shifted on its own, summed (R73, R75). -/
def partialSum (w x y : Nat) (k : Int) : Nat :=
  shiftedTerm (x / 2 ^ (w / 2) * (y / 2 ^ (w / 2))) (k - (w : Int))
    + shiftedTerm (x / 2 ^ (w / 2) * (y % 2 ^ (w / 2))) (k - ((w / 2 : Nat) : Int))
    + shiftedTerm (x % 2 ^ (w / 2) * (y / 2 ^ (w / 2))) (k - ((w / 2 : Nat) : Int))
    + shiftedTerm (x % 2 ^ (w / 2) * (y % 2 ^ (w / 2))) k

/-- `n` rounds of R130's loop on numbers below `2^w`. -/
def roundsNat (w : Nat) : Nat → Nat × Nat → Nat × Nat
  | 0, p => p
  | n + 1, p =>
    roundsNat w n
      ((p.1 + partialSum w p.1 p.2 ((w : Int) + 1) % 2 ^ w) % 2 ^ w,
        partialSum w p.2 p.2 ((w : Int) + 1) % 2 ^ w)

/-- R130's quotient magnitude, on numbers below `2^w`, for a nonzero divisor. -/
def quotientNat (w fb x y : Nat) : Nat :=
  let lz := w - 1 - Nat.log2 y
  let d := y * 2 ^ lz
  let r := (roundsNat w (w - 1) (2 ^ (w - 1), (2 ^ w - d) * 2 % 2 ^ w)).1
  let c : Int := if d = 2 ^ (w - 1) then 1 else 0
  partialSum w r x (2 * (w : Int) - 1 - (fb : Int) - (lz : Int) - c) % 2 ^ w

/-- The exact quotient of R136 (e) and R137, `floor(|a| * 2^FB / |b|)`. -/
def exactQuotient {w : Nat} (signed : Bool) (fb : Nat) (a b : BitVec w) : Nat :=
  magNat signed a * 2 ^ fb / magNat signed b

/-- The rounds after which the error term of a division has vanished (R136 a). -/
def roundBound : Width → Nat
  | .w8 => 4
  | .w16 => 5
  | .w32 => 6
  | .w64 => 7

end Sys2Proof.Machine
end

