-- ==== Sys2Proof/Certificates/Slice0/Obligations.lean ====
section
/-!
DEFINITION. The statements for the provers. Each docstring names the rule of spec/ it formalises, or the
sections and the log entry it rests on. A statement about an instruction's result has as its conclusion
that `exec` answers the next state that holds the result, in every state, for every field of the word.
-/

open Sys2Proof Sys2Proof.Machine

/-! ## Encoding -/

/-- Decoding an encoded well-formed instruction gives it back, with both counts at every 7-bit value
(sections 1 and 2 of 30_encoding.md). -/
def Obligations.DecodeOfEncode : Prop :=
  ∀ i : Instr, i.wellFormed = true → decode (encode i) = .ok i

/-- A word that decodes is the word of the instruction it decodes to, and that is well-formed: no two
words mean the same instruction (sections 1 and 2 of 30_encoding.md). -/
def Obligations.EncodeOfDecode : Prop :=
  ∀ (cmd : BitVec 19) (i : Instr), decode cmd = .ok i → encode i = cmd ∧ i.wellFormed = true

/-- R53, R51: bits 4:0 alone select the operation, by the opcode map, for every value of the other
fields; bits 11:5 are `F` and bits 18:12 are `FB`; every other code selects no operation. -/
def Obligations.OpcodeMapSelectsByOpAlone : Prop :=
  ∀ cmd : BitVec 19,
    match [(0x00, "CLZ"), (0x01, "SSHR"), (0x02, "SSHL"), (0x03, "MULSHR"), (0x04, "FROMINT"),
        (0x05, "FROMFLT"), (0x06, "TOFLT"), (0x07, "CVT"), (0x08, "ADD"), (0x09, "SUB"), (0x0A, "MUL"),
        (0x0B, "DIV"), (0x0C, "NEG"), (0x0D, "MOD"), (0x0E, "ABS"), (0x10, "EQ"), (0x11, "LT"),
        (0x12, "LE"), (0x13, "GT"), (0x14, "GE")].lookup (cmd.extractLsb' 0 5).toNat with
    | some name => ∃ i, decode cmd = .ok i ∧ i.mnemonic = name
        ∧ i.f = (cmd.extractLsb' 5 7).toNat ∧ i.fb = (cmd.extractLsb' 12 7).toNat
    | none => decode cmd = .error (.reservedOp (cmd.extractLsb' 0 5).toNat)

/-- Words written out from the table of canonical encodings decode to the operations they stand for (section 4 of
30_encoding.md). -/
def Obligations.CanonicalWordsDecode : Prop :=
  decode 0x00000#19 = .ok (.clz 0 0) ∧ decode 0x00003#19 = .ok (.mulshr 0 0)
    ∧ decode 0x00205#19 = .ok (.fromflt 16 0) ∧ decode 0x08207#19 = .ok (.cvt 16 8)
    ∧ decode 0x10208#19 = .ok (.add 16 16) ∧ decode 0x2040B#19 = .ok (.div 32 32)
    ∧ decode 0x0000E#19 = .ok (.abs 0 0) ∧ decode 0x10214#19 = .ok (.ge 16 16)

/-- The assembler's default (section 4 of 30_encoding.md, point (a) of its pseudo-instructions): an
omitted `.FB` on an operation that reads `FB` assembles as `F`; what is assembled is well-formed. -/
def Obligations.AssemblerDefaultsFBToF : Prop :=
  ∀ op ∈ [Instr.cvt, .add, .sub, .mul, .div, .mod, .eq, .lt, .le, .gt, .ge], ∀ f : Nat, f < 128 →
    assemble op [f] = some (op f f) ∧ assemble op [f] = assemble op [f, f]
      ∧ ((assemble op [f]).map Instr.wellFormed) = some true

/-! ## The step -/

/-- A step runs the decoded instruction: where a command is accepted and its word decodes, the step is
the instruction's meaning followed by the end of the cycle (sections 1 and 2 of 10_state.md). -/
def Obligations.StepRunsTheDecodedInstruction : Prop :=
  ∀ (s : State) (i : Instr), s.fxu.inp.rst = false → s.fxu.held = true → s.fxu.inp.cmdValid = true →
    s.fxu.cmdWait = 0 → decode s.command.cmd = .ok i →
    step s = (match exec i s with
      | .next t => .next t.edge
      | .fault r => .fault r
      | .refused r => .refused r)

/-- The very next step after `withFetchWord` runs the instruction that `decodeTableWord` reads (log
entry 7; section 1 of 30_encoding.md). -/
def Obligations.FetchWordRunsNext : Prop :=
  ∀ (s : State) (nbits w : Nat) (i : Instr), decodeTableWord nbits w = some i →
    step (s.withFetchWord nbits w) = (match exec i (s.withFetchWord nbits w) with
      | .next t => .next t.edge
      | .fault r => .fault r
      | .refused r => .refused r)

/-- An accepted command, of any code, is answered with the outcome that the pure function of its fields
and ports gives it, and the cycle ends: the step agrees with that function (section 2 of 10_state.md). -/
def Obligations.StepAnswersWithTheOutcome : Prop :=
  ∀ s : State, s.fxu.held = true → s.fxu.accepts = true →
    step s = .next (s.respond (outcome s.signed s.command)).edge

/-- R174: a command is answered IllegalCommand exactly when its operation code is reserved, whatever the
other fields and ports carry. -/
def Obligations.ReservedCodesAreIllegal : Prop :=
  ∀ s : State, s.fxu.held = true → s.fxu.accepts = true → ∀ op : Nat,
    op = (s.command.cmd.extractLsb' 0 5).toNat →
    ((op = 0x0F ∨ 0x15 ≤ op) → step s = .next (s.respond (.fault .illegalCommand)).edge)
      ∧ (¬(op = 0x0F ∨ 0x15 ≤ op) →
        ∃ r, step s = .next (s.respond r).edge ∧ r ≠ .fault .illegalCommand)

/-- The codes on the fault port, and which operations can raise which fault: the three faults belong to
disjoint sets of operations, and every other outcome has code 0 and a result (section 1 of
60_exceptions.md). -/
def Obligations.FaultCodesAndTheirRaisers : Prop :=
  ∀ (i : Instr) (s : State), ∃ r, exec i s = .next (s.respond r)
    ∧ ((r.faultField = 0#2 ∧ r.faultOf = none)
      ∨ (r.faultField = 1#2 ∧ r = .fault .divisionByZero ∧ i.mnemonic ∈ ["DIV", "MOD"])
      ∨ (r.faultField = 2#2 ∧ r = .fault .convInvalid ∧ i.mnemonic = "FROMFLT"))
    ∧ (Response.fault (w := s.w) .illegalCommand).faultField = 3#2

/-- Every operation has exactly one outcome: a result on `fy` for TOFLT, on `y` for every other, or a
fault and no result (section 4 of 00_scope.md, section 2 of 30_encoding.md). -/
def Obligations.ResultKindOfEachOperation : Prop :=
  ∀ (i : Instr) (s : State), ∃ r, exec i s = .next (s.respond r)
    ∧ (match r with
      | .y _ => i.mnemonic ≠ "TOFLT"
      | .fy _ => i.mnemonic = "TOFLT"
      | .fault _ => i.mnemonic ∈ ["DIV", "MOD", "FROMFLT"])

/-- The frame of all twenty operations: a meaning adds one in-flight entry, takes one latency and records
its command; the instance constants, every port, the host's plan, what the host owes, `cmd_ready`, the
earlier in-flight entries, the delivered responses and the record of faults are unchanged (sections 1 and
2 of 10_state.md; section 4 of 70_reset_and_hazards.md for the latency, which it leaves open). Three clauses
are the model's choice: that the latency is the head of a list, 0 once the list is empty (log entry 4); that
the command joins the record (log entry 5); and that a fault is recorded only later (log entry 15). -/
def Obligations.FrameOfEveryOperation : Prop :=
  ∀ (i : Instr) (s t : State), exec i s = .next t →
    ∃ c : Fxu s.w, t = ⟨s.params, c⟩ ∧ c.inp = s.fxu.inp ∧ c.host = s.fxu.host
      ∧ c.offered = s.fxu.offered ∧ c.cmdWait = s.fxu.cmdWait ∧ c.gaps = s.fxu.gaps
      ∧ c.delivered = s.fxu.delivered ∧ c.faults = s.fxu.faults ∧ c.lats = s.fxu.lats.tail
      ∧ c.accepted = s.fxu.accepted ++ [s.command]
      ∧ ∃ r, c.inflight = s.fxu.inflight ++ [⟨s.fxu.lats.headD 0, r⟩]

/-- In a cycle in which `rst` is sampled 1 nothing is accepted, everything in flight is discarded,
`rsp_valid` is 0 in the next cycle, and the instance constants stay, whatever the command channel carries
(section 1 of 70_reset_and_hazards.md). That both records start again at this edge, a response taken at it
included, is the model's choice of log entry 5; that the latencies to come stay is that of log entry 4. -/
def Obligations.ResetEdgeDiscardsEverything : Prop :=
  ∀ s : State, s.fxu.inp.rst = true →
    ∃ c : Fxu s.w, step s = .next ⟨s.params, c⟩ ∧ c.inflight = [] ∧ c.rspValid = false
      ∧ c.accepted = [] ∧ c.delivered = [] ∧ c.lats = s.fxu.lats

/-- After reset, on every instance, no command is in flight and `rsp_valid` is 0 (the reset table in
section 4 of 10_state.md). The table calls the data outputs unspecified while `rsp_valid` is 0; that they
have no value then is the model's reading of it (log entry 10, DEDUCED, from U11 of
93_implementation_defined.md). -/
def Obligations.StateAfterReset : Prop :=
  ∀ p : Params, (State.resetFor p).fxu.inflight = [] ∧ (State.resetFor p).fxu.rspValid = false
    ∧ (State.resetFor p).fxu.yPort = none ∧ (State.resetFor p).fxu.fyPort = none
    ∧ (State.resetFor p).fxu.faultPort = none

/-- Beside a fault neither data output has a value, and a response that carries no fault drives
exactly one of them (section 1 of 60_exceptions.md). The spec leaves the others unspecified; that they have
no value is the model's reading (log entry 10, DEDUCED). -/
def Obligations.OutputsOfAPresentedResponse : Prop :=
  ∀ (w : Nat) (f : Fxu w) (r : Response w), f.presented = some r →
    f.rspValid = true ∧ f.faultPort = some r.faultField
      ∧ (r.faultField ≠ 0#2 → f.yPort = none ∧ f.fyPort = none)
      ∧ (r.faultField = 0#2 → (f.yPort.isSome != f.fyPort.isSome) = true)

/-- No step changes the instance constants (section 3 of 00_scope.md, section 1 of
70_reset_and_hazards.md). -/
def Obligations.InstanceConstantsNeverChange : Prop :=
  ∀ s t : State, step s = .next t → t.params = s.params

/-- The machine stops only for a host that withdrew or changed an offered command outside a reset cycle
(log entry 6; section 2 of 70_reset_and_hazards.md); in every other state the step has a next state. -/
def Obligations.StopsOnlyForABrokenHost : Prop :=
  ∀ s : State,
    (s.fxu.inp.rst = false ∧ (∃ c, s.fxu.offered = some c
        ∧ ¬(s.fxu.inp.cmdValid = true ∧ s.fxu.inp.command = c))
      → step s = .refused .commandNotHeld)
    ∧ (¬(s.fxu.inp.rst = false ∧ (∃ c, s.fxu.offered = some c
        ∧ ¬(s.fxu.inp.cmdValid = true ∧ s.fxu.inp.command = c)))
      → ∃ t, step s = .next t)

/-- A cycle that accepts nothing and samples no reset leaves the record of accepted commands as it is, and
the responses in flight afterwards are the earlier ones, without the oldest if it was presented and taken
(section 2 of 10_state.md). That the model's list of latencies to come stays too is log entry 4, a choice of
the model; the record is that of log entry 5. -/
def Obligations.NoHandshakeNoAcceptance : Prop :=
  ∀ s : State, s.fxu.inp.rst = false → s.fxu.held = true →
    (s.fxu.inp.cmdValid = false ∨ s.fxu.cmdReady = false) →
    ∃ c : Fxu s.w, step s = .next ⟨s.params, c⟩ ∧ c.accepted = s.fxu.accepted
      ∧ c.lats = s.fxu.lats
      ∧ c.inflight.map Pending.rsp
        = if s.fxu.rspValid = true ∧ s.fxu.inp.rspReady = true then (s.fxu.inflight.map Pending.rsp).tail
          else s.fxu.inflight.map Pending.rsp

/-! ## Order, independence, liveness -/

/-- The order of responses is an invariant: from every state that has it, every step keeps it (section 2
of 20_memory.md). -/
def Obligations.EveryStepKeepsResponseOrder : Prop :=
  ∀ s t : State, s.InOrder → step s = .next t → t.InOrder

/-- The invariant holds at `State.reset` and after reset on every other instance (section 2 of
20_memory.md). -/
def Obligations.ResponseOrderAfterReset : Prop :=
  State.reset.InOrder ∧ ∀ p : Params, (State.resetFor p).InOrder

/-- R45: in every run from an ordered state, the n-th response delivered since the last reset is the
outcome of the n-th command accepted since then, and nothing is dropped or duplicated: the answers still
owed are those of the remaining commands, one each, in order. -/
def Obligations.NthResponseAnswersNthCommand : Prop :=
  ∀ (s t : State) (k : Nat), s.InOrder → runSteps k s = .next t →
    (∀ (n : Nat) (r : Response t.w), t.fxu.delivered[n]? = some r →
      ∃ c, t.fxu.accepted[n]? = some c ∧ r = outcome t.signed c)
    ∧ t.fxu.accepted.length = t.fxu.delivered.length + t.fxu.inflight.length
    ∧ (∀ (n : Nat) (p : Pending t.w), t.fxu.inflight[n]? = some p →
      ∃ c, t.fxu.accepted[t.fxu.delivered.length + n]? = some c ∧ p.rsp = outcome t.signed c)

/-- The outcome of a command does not depend on anything but the command and the instance: two blocks of
one instance that accept equal commands answer them alike, whatever their histories, latencies and hosts
(section 2 of 20_memory.md). -/
def Obligations.OutcomeIgnoresHistory : Prop :=
  ∀ (p : Params) (f g : Fxu p.width.bits), f.held = true → g.held = true → f.accepts = true →
    g.accepts = true → f.inp.command = g.inp.command →
    ∃ r : Response p.width.bits, step ⟨p, f⟩ = .next ⟨p, (f.respond r).edge⟩
      ∧ step ⟨p, g⟩ = .next ⟨p, (g.respond r).edge⟩

/-- R56: the outcome is the same for every bit pattern on the ports and in the fields that R55 does not
mark as read. -/
def Obligations.UnreadInputsAreIgnored : Prop :=
  ∀ (p : Params) (f g : Fxu p.width.bits) (i j : Instr), sameRead i j →
    agreeOn i f.inp.command g.inp.command →
    ∃ r : Response p.width.bits, exec i ⟨p, f⟩ = .next ⟨p, f.respond r⟩
      ∧ exec j ⟨p, g⟩ = .next ⟨p, g.respond r⟩

/-- From every state in which no reset is sampled and the host's plan is empty, so that it holds what it
offers and takes responses (log entry 2), everything in flight is answered after finitely many cycles, and
so is a command that the host is offering; the responses are the outcomes, in order (R197, the liveness
rule of section 3 of 70_reset_and_hazards.md, and section 1 there). -/
def Obligations.EveryCommandIsAnswered : Prop :=
  ∀ s : State, s.fxu.inp.rst = false → s.fxu.host = [] → s.fxu.held = true →
    ∃ (n : Nat) (c : Fxu s.w), runSteps n s = .next ⟨s.params, c⟩
      ∧ c.inflight = [] ∧ c.inp.cmdValid = false
      ∧ c.delivered = s.fxu.delivered ++ s.fxu.inflight.map Pending.rsp
        ++ (if s.fxu.inp.cmdValid then [outcome s.signed s.command] else [])

/-- A presented response that the host does not take is presented unchanged in the next cycle, if no reset
is sampled, and nothing is delivered (section 2 of 70_reset_and_hazards.md). The block `g` is the one that
presents in this cycle: the command accepted in it, if there is one, has joined the others, since a
response may be presented in its cycle of acceptance (section 4 there, log entry 11). -/
def Obligations.UntakenResponseIsHeld : Prop :=
  ∀ (s : State) (g : Fxu s.w) (r : Response s.w), s.fxu.inp.rst = false → s.fxu.held = true →
    g = (if s.fxu.accepts then s.fxu.respond (outcome s.signed s.command) else s.fxu) →
    g.presented = some r → s.fxu.inp.rspReady = false →
    ∃ c : Fxu s.w, step s = .next ⟨s.params, c⟩ ∧ c.presented = some r
      ∧ c.inflight.map Pending.rsp = g.inflight.map Pending.rsp ∧ c.delivered = s.fxu.delivered

/-- The response channel (section 2 of 10_state.md): a response is delivered exactly when `rsp_valid` and
`rsp_ready` are both 1 at an edge without reset. Then it is the presented one, the oldest in flight; it is
appended to the record and leaves the in-flight list. Otherwise nothing is delivered and every response in
flight stays. The block `g` is the one that presents in this cycle (log entry 11). -/
def Obligations.TakenResponseIsDelivered : Prop :=
  ∀ (s : State) (g : Fxu s.w), s.fxu.inp.rst = false → s.fxu.held = true →
    g = (if s.fxu.accepts then s.fxu.respond (outcome s.signed s.command) else s.fxu) →
    ∃ c : Fxu s.w, step s = .next ⟨s.params, c⟩
      ∧ (g.rspValid = true ∧ s.fxu.inp.rspReady = true →
        ∃ r : Response s.w, g.presented = some r ∧ c.delivered = s.fxu.delivered ++ [r]
          ∧ g.inflight.map Pending.rsp = r :: c.inflight.map Pending.rsp)
      ∧ (¬(g.rspValid = true ∧ s.fxu.inp.rspReady = true) →
        c.delivered = s.fxu.delivered ∧ c.inflight.map Pending.rsp = g.inflight.map Pending.rsp)

/-- The record of faults is sticky, also across resets: no step takes an entry from it, a sequence that has
met a fault never counts as completed normally afterwards, and until a reset the first fault delivered
stays the first, with its index (the advice in section 2 of 60_exceptions.md; log entry 15; that the index
counts from 0 is log entry 16, and the clause holds wherever it starts). -/
def Obligations.RecordedFaultsStay : Prop :=
  (∀ s t : State, step s = .next t →
    s.fxu.faults <+: t.fxu.faults
      ∧ (s.fxu.inp.rst = false → (firstFault s.fxu.delivered).isSome = true →
        firstFault t.fxu.delivered = firstFault s.fxu.delivered))
  ∧ ∀ (s t : State) (k : Nat), runSteps k s = .next t → s.clean = false → t.completedNormally = false

/-- What an edge adds to the record of faults: without reset, the fault of the response it delivers; in a
reset cycle, the fault of every response in flight, the one delivered at that edge among them (the advice
in section 2 of 60_exceptions.md; that a discarded fault outcome counts as met is log entry 15). -/
def Obligations.EveryFaultMetIsRecorded : Prop :=
  ∀ (s : State) (c : Fxu s.w), step s = .next ⟨s.params, c⟩ →
    (s.fxu.inp.rst = true →
      c.faults = s.fxu.faults ++ (s.fxu.inflight.map Pending.rsp).filterMap Response.faultOf)
    ∧ (s.fxu.inp.rst = false → ∃ l : List (Response s.w),
      c.delivered = s.fxu.delivered ++ l ∧ c.faults = s.fxu.faults ++ l.filterMap Response.faultOf)

/-- That the record of faults holds every fault delivered since the last reset is an invariant: from every
state that has it, every step keeps it (section 2 of 60_exceptions.md, log entry 15). -/
def Obligations.EveryStepKeepsFaultsRecorded : Prop :=
  ∀ s t : State, s.FaultsRecorded → step s = .next t → t.FaultsRecorded

/-- The invariant holds at `State.reset` and after reset on every other instance, where nothing has been
met (log entry 15). -/
def Obligations.FaultsRecordedAfterReset : Prop :=
  (State.reset.FaultsRecorded ∧ State.reset.clean = true)
    ∧ ∀ p : Params, (State.resetFor p).FaultsRecorded ∧ (State.resetFor p).clean = true

/-! ## Bit primitives -/

/-- R77: the count `n` is `W` for a zero operand, and otherwise bit `W-1-n` is the highest set bit;
whatever `S` is. -/
def Obligations.ClzCountsLeadingZeros : Prop :=
  ∀ (f fb : Nat) (s : State), ∃ n : Nat, exec (.clz f fb) s = .next (s.respond (.y (BitVec.ofNat s.w n)))
    ∧ (s.a = 0 → n = s.w)
    ∧ (s.a ≠ 0 → n < s.w ∧ s.a.getLsbD (s.w - 1 - n) = true
      ∧ ∀ k, s.w - 1 - n < k → s.a.getLsbD k = false)

/-- R78: SSHR is the right shift of the library, arithmetic on a signed instance and logical on an
unsigned one, the left shift for a negative amount, and 0 for an amount of magnitude `W` or more. -/
def Obligations.SshrShiftsRight : Prop :=
  ∀ (f fb : Nat) (s : State),
    exec (.sshr f fb) s = .next (s.respond (.y (nativeShift s.signed s.a s.command.s.toInt)))

/-- R79: SSHL is SSHR by the negated amount. -/
def Obligations.SshlShiftsLeft : Prop :=
  ∀ (f fb : Nat) (s : State),
    exec (.sshl f fb) s = .next (s.respond (.y (nativeShift s.signed s.a (-s.command.s.toInt))))

/-- R80: MULSHR sums the four partial products of the magnitudes, each shifted on its own, and applies
the sign of the product. -/
def Obligations.MulshrSumsShiftedPartials : Prop :=
  ∀ (f fb : Nat) (s : State),
    exec (.mulshr f fb) s = .next (s.respond (.y (withSign s.signed s.a s.b
      (partialSum s.w (magNat s.signed s.a) (magNat s.signed s.b) s.command.s.toInt))))

/-- The magnitude of MULSHR falls short of the exact truncated product by at most 3, by at most 2 for an
amount up to `W`, and not at all for an amount up to `W/2`; for an amount of 0 or less it is the exact
product shifted left (the derived rule on what `umulshr` computes, section 1 of
40_bit_primitives.md). -/
def Obligations.MulshrShortfallAtMostThree : Prop :=
  ∀ (f fb : Nat) (s : State) (x : Nat) (k : Int), x = magNat s.signed s.a * magNat s.signed s.b →
    k = s.command.s.toInt →
    ∃ p d : Nat, exec (.mulshr f fb) s = .next (s.respond (.y (withSign s.signed s.a s.b p)))
      ∧ p + d = shiftedTerm x k ∧ d ≤ 3 ∧ (k ≤ (s.w : Int) → d ≤ 2)
      ∧ (k ≤ ((s.w / 2 : Nat) : Int) → d = 0)

/-! ## Conversion -/

/-- R90: FROMINT shifts the integer left by `F`; a count of `W` or more leaves 0. -/
def Obligations.FromintShiftsLeftByF : Prop :=
  ∀ (f fb : Nat) (s : State), exec (.fromint f fb) s = .next (s.respond (.y (s.a <<< f)))

/-- The real value of a binary64 vector, by its three fields (section 2 of 41_construct_convert.md). -/
def Obligations.FloatFieldsGiveTheValue : Prop :=
  ∀ (x : BitVec 64) (sg : ℚ) (ex fr : Nat), sg = (if x.getLsbD 63 then -1 else 1) →
    ex = (x.extractLsb' 52 11).toNat → fr = (x.extractLsb' 0 52).toNat →
    (ex = 2047 → floatReal x = none)
    ∧ (ex = 0 → floatReal x = some (sg * (fr : ℚ) * (2 : ℚ) ^ (-1074 : Int)))
    ∧ (1 ≤ ex → ex ≤ 2046 →
      floatReal x = some (sg * ((2 ^ 52 + fr : Nat) : ℚ) * (2 : ℚ) ^ ((ex : Int) - 1075)))

/-- R94: FROMFLT rounds the exact product of its operand and `2^F` half away from zero, and raises
ConvInvalid for an infinity, a NaN, or a rounded integer outside the stored range. -/
def Obligations.FromfltRoundsHalfAway : Prop :=
  ∀ (f fb : Nat) (s : State),
    match floatReal s.command.fa with
    | none => exec (.fromflt f fb) s = .next (s.respond (.fault .convInvalid))
    | some d =>
      if (if s.signed then -(2 ^ (s.w - 1) : Int) else 0) ≤ rhaReal (d * 2 ^ f)
          ∧ rhaReal (d * 2 ^ f) ≤ (if s.signed then (2 ^ (s.w - 1) : Int) - 1 else (2 ^ s.w : Int) - 1) then
        exec (.fromflt f fb) s = .next (s.respond (.y (BitVec.ofInt s.w (rhaReal (d * 2 ^ f)))))
      else exec (.fromflt f fb) s = .next (s.respond (.fault .convInvalid))

/-- R95, R93: TOFLT gives `+0.0` for 0; otherwise, with `2^e` the power of two at or below the magnitude
of the value `x`, it gives the number whose significand is `|x| / 2^(e-52)` rounded to the nearest
integer, ties to even. -/
def Obligations.TofltRoundsToNearestEven : Prop :=
  ∀ (f fb : Nat) (s : State) (x : ℚ), f < 128 → x = realOf s.signed f s.a →
    ∃ v : BitVec 64, exec (.toflt f fb) s = .next (s.respond (.fy v))
      ∧ (x = 0 → v = 0)
      ∧ (x ≠ 0 → ∃ (e : Int) (n : Nat), (2 : ℚ) ^ e ≤ |x| ∧ |x| < (2 : ℚ) ^ (e + 1)
        ∧ |(n : ℚ) - |x| / (2 : ℚ) ^ (e - 52)| ≤ 1 / 2
        ∧ (|(n : ℚ) - |x| / (2 : ℚ) ^ (e - 52)| = 1 / 2 → n % 2 = 0)
        ∧ floatReal v = some ((if x < 0 then -1 else 1) * (n : ℚ) * (2 : ℚ) ^ (e - 52)))

/-- R96: CVT shifts the operand on `b` right by `FB - F`, arithmetically on a signed instance. -/
def Obligations.CvtRealignsTheRightOperand : Prop :=
  ∀ (f fb : Nat) (s : State), exec (.cvt f fb) s
    = .next (s.respond (.y (nativeShift s.signed s.b ((fb : Int) - (f : Int)))))

/-- A stored integer whose magnitude has at most 53 significant bits, trailing zeros not counted, survives
TOFLT followed by FROMFLT at the same `F`, on every instance (section 2 of 41_construct_convert.md, the last
section there, and section 3 of 95_test_vectors.md). -/
def Obligations.FloatRoundTripIsExact : Prop :=
  ∀ (f fb fb' m k : Nat) (p : Params) (g h : Fxu p.width.bits), f < 128 → m < 2 ^ 53 →
    magNat p.signed g.inp.command.a = m * 2 ^ k →
    ∃ v : BitVec 64, exec (.toflt f fb) ⟨p, g⟩ = .next ⟨p, g.respond (.fy v)⟩
      ∧ (h.inp.command.fa = v →
        exec (.fromflt f fb') ⟨p, h⟩ = .next ⟨p, h.respond (.y g.inp.command.a)⟩)

/-- Where FROMFLT answers a result, it is within half a unit of the last place of its operand (the
derived bound in the last section of 41_construct_convert.md). -/
def Obligations.FromfltErrorAtMostHalfUlp : Prop :=
  ∀ (f fb : Nat) (s : State) (v : BitVec s.w), exec (.fromflt f fb) s = .next (s.respond (.y v)) →
    ∃ d : ℚ, floatReal s.command.fa = some d ∧ |realOf s.signed f v - d| ≤ 1 / 2 ^ (f + 1)

/-! ## Arithmetic -/

/-- R110: ADD adds the realigned right operand and wraps. -/
def Obligations.AddWrapsAfterRealigning : Prop :=
  ∀ (f fb : Nat) (s : State), exec (.add f fb) s
    = .next (s.respond (.y (s.a + nativeShift s.signed s.b ((fb : Int) - (f : Int)))))

/-- R111: SUB subtracts the realigned right operand and wraps. -/
def Obligations.SubWrapsAfterRealigning : Prop :=
  ∀ (f fb : Nat) (s : State), exec (.sub f fb) s
    = .next (s.respond (.y (s.a - nativeShift s.signed s.b ((fb : Int) - (f : Int)))))

/-- R112: MUL is the multiply-then-shift by `FB`, whatever `F` is. -/
def Obligations.MulShiftsByFB : Prop :=
  ∀ (f fb : Nat) (s : State), exec (.mul f fb) s
    = .next (s.respond (.y (withSign s.signed s.a s.b
      (partialSum s.w (magNat s.signed s.a) (magNat s.signed s.b) (fb : Int)))))

/-- On an unsigned instance a product by a power of two is exact and wraps (the corner cases of MUL,
section 1 of 42_arithmetic.md). -/
def Obligations.MulByPowerOfTwoIsExact : Prop :=
  ∀ (f fb k : Nat) (s : State), s.signed = false → k < s.w → s.b = BitVec.ofNat s.w (2 ^ k) →
    exec (.mul f fb) s = .next (s.respond (.y (BitVec.ofNat s.w (s.a.toNat * 2 ^ k / 2 ^ fb))))

/-- R113: NEG is the two's-complement negation on every instance. -/
def Obligations.NegIsTwosComplement : Prop :=
  ∀ (f fb : Nat) (s : State), exec (.neg f fb) s = .next (s.respond (.y (-s.a)))

/-- R114: MOD is the remainder of truncating division, with the sign of the dividend, by the realigned
divisor, and DivisionByZero when that is zero. -/
def Obligations.ModIsTruncatedRemainder : Prop :=
  ∀ (f fb : Nat) (s : State) (m : BitVec s.w), m = nativeShift s.signed s.b ((fb : Int) - (f : Int)) →
    (m = 0 → exec (.mod f fb) s = .next (s.respond (.fault .divisionByZero)))
    ∧ (m ≠ 0 → exec (.mod f fb) s
      = .next (s.respond (.y (if s.signed then s.a.srem m else s.a.umod m))))

/-- R115: ABS negates a negative operand of a signed instance, and returns every operand of an unsigned
one. -/
def Obligations.AbsOfSignedAndUnsigned : Prop :=
  ∀ (f fb : Nat) (s : State), exec (.abs f fb) s
    = .next (s.respond (.y (if s.signed = true ∧ s.a.toInt < 0 then -s.a else s.a)))

/-- R124: `x + 0 = x`, `x * 1 = x` and `x - x = 0` at one fractional-bit count, for every operand, where
"1" is the stored integer `2^F` and is representable. -/
def Obligations.IdentityLaws : Prop :=
  ∀ (f : Nat) (s : State),
    (s.b = 0 → exec (.add f f) s = .next (s.respond (.y s.a)))
    ∧ (s.b = s.a → exec (.sub f f) s = .next (s.respond (.y 0)))
    ∧ (s.b = BitVec.ofNat s.w (2 ^ f) → (if s.signed then f + 2 ≤ s.w else f + 1 ≤ s.w) →
      exec (.mul f f) s = .next (s.respond (.y s.a)))

/-- On a signed instance, negating an operand other than the most negative negates the product and the
quotient (the derived rules on sign combinations in section 2 of 42_arithmetic.md and section 3 of
43_divide.md). -/
def Obligations.NegatedOperandNegatesTheResult : Prop :=
  ∀ (f fb : Nat) (wd : Width) (g h : Fxu wd.bits), g.inp.command.a ≠ BitVec.intMin wd.bits →
    h.inp.command.a = -g.inp.command.a → h.inp.command.b = g.inp.command.b →
    (∃ v, exec (.mul f fb) ⟨⟨wd, true⟩, g⟩ = .next ⟨⟨wd, true⟩, g.respond (.y v)⟩
      ∧ exec (.mul f fb) ⟨⟨wd, true⟩, h⟩ = .next ⟨⟨wd, true⟩, h.respond (.y (-v))⟩)
    ∧ (g.inp.command.b ≠ 0 →
      ∃ v, exec (.div f fb) ⟨⟨wd, true⟩, g⟩ = .next ⟨⟨wd, true⟩, g.respond (.y v)⟩
        ∧ exec (.div f fb) ⟨⟨wd, true⟩, h⟩ = .next ⟨⟨wd, true⟩, h.respond (.y (-v))⟩)

/-! ## Division -/

/-- R172: DIV faults exactly when its divisor is the zero vector, MOD exactly when its realigned divisor
is, which every divisor is when the counts differ by `W` or more; the dividend is not looked at. -/
def Obligations.DivisionByZeroFaults : Prop :=
  ∀ (f fb : Nat) (s : State),
    (exec (.div f fb) s = .next (s.respond (.fault .divisionByZero)) ↔ s.b = 0)
    ∧ (exec (.mod f fb) s = .next (s.respond (.fault .divisionByZero))
      ↔ nativeShift s.signed s.b ((fb : Int) - (f : Int)) = 0)
    ∧ (s.w ≤ ((fb : Int) - (f : Int)).natAbs →
      exec (.mod f fb) s = .next (s.respond (.fault .divisionByZero)))

/-- R130: for a nonzero divisor DIV completes with the quotient of the five steps, computed on plain
numbers. -/
def Obligations.DivFollowsTheFiveSteps : Prop :=
  ∀ (f fb : Nat) (s : State),
    (s.b = 0 → exec (.div f fb) s = .next (s.respond (.fault .divisionByZero)))
    ∧ (s.b ≠ 0 → exec (.div f fb) s = .next (s.respond (.y (withSign s.signed s.a s.b
      (quotientNat s.w fb (magNat s.signed s.a) (magNat s.signed s.b))))))

/-- The magnitude of a quotient never exceeds the exact truncated quotient, whenever that fits `W` bits
(the derived facts and the accuracy rule in section 3 of 43_divide.md). -/
def Obligations.QuotientNeverExceedsTheExact : Prop :=
  ∀ (f fb : Nat) (s : State), s.b ≠ 0 → exactQuotient s.signed fb s.a s.b < 2 ^ s.w →
    ∃ q : Nat, exec (.div f fb) s = .next (s.respond (.y (withSign s.signed s.a s.b q)))
      ∧ q ≤ exactQuotient s.signed fb s.a s.b

/-- Division by a power of two is the exact shift, wrapped (point (e) of the derived facts in section 3
of 43_divide.md). -/
def Obligations.DivByPowerOfTwoIsExact : Prop :=
  ∀ (f fb k : Nat) (s : State), magNat s.signed s.b = 2 ^ k →
    exec (.div f fb) s = .next (s.respond (.y (withSign s.signed s.a s.b
      (magNat s.signed s.a * 2 ^ fb / 2 ^ k))))

/-- The refinement has converged after 4, 5, 6 or 7 rounds: any further number of rounds gives the same
estimate as all `W - 1`, for every normalised divisor (points (a) and (b) of the derived facts in
section 3 of 43_divide.md). -/
def Obligations.SurplusRoundsChangeNothing : Prop :=
  ∀ (wd : Width) (d : BitVec wd.bits) (n : Nat), d.msb = true → roundBound wd ≤ n →
    (refine n (seed d)).e = 0
      ∧ refine n (seed d) = refine (Config.rounds wd.bits) (seed d)

/-! ## Comparison -/

/-- R151: EQ holds exactly when each operand, brought to the other's count, reproduces the other. -/
def Obligations.EqIsMutualReproduction : Prop :=
  ∀ (f fb : Nat) (s : State), exec (.eq f fb) s = .next (s.respond (.y
    (if nativeShift s.signed s.b ((fb : Int) - (f : Int)) = s.a
        ∧ nativeShift s.signed s.a ((f : Int) - (fb : Int)) = s.b then 1 else 0)))

/-- R153, R154, R155, R156: the four orderings compare the integral parts, and on a tie the aligned
fractional remainders as unsigned numbers. -/
def Obligations.OrderingsCompareInTwoStages : Prop :=
  ∀ (f fb : Nat) (s : State) (x y : Int) (u v : Nat),
    x = val s.signed (nativeIntegral s.signed f s.a) →
    y = val s.signed (nativeIntegral s.signed fb s.b) →
    u = (nativeFraction s.signed f s.a).toNat → v = (nativeFraction s.signed fb s.b).toNat →
    exec (.lt f fb) s = .next (s.respond (.y (if x < y ∨ (x = y ∧ u < v) then 1 else 0)))
    ∧ exec (.le f fb) s = .next (s.respond (.y (if x < y ∨ (x = y ∧ u ≤ v) then 1 else 0)))
    ∧ exec (.gt f fb) s = .next (s.respond (.y (if y < x ∨ (x = y ∧ v < u) then 1 else 0)))
    ∧ exec (.ge f fb) s = .next (s.respond (.y (if y < x ∨ (x = y ∧ v ≤ u) then 1 else 0)))

/-- Inside the meaningful range of the counts the five comparisons are equality and order of the real
numbers that the operands represent, so exactly one of less, equal and greater holds (the consistency
law in section 4 of 44_compare.md, whose extent the spec marks as derived). -/
def Obligations.ComparisonsAgreeWithRealOrder : Prop :=
  ∀ (f fb : Nat) (s : State) (x y : ℚ), countInRange s.w s.signed f → countInRange s.w s.signed fb →
    x = realOf s.signed f s.a → y = realOf s.signed fb s.b →
    exec (.eq f fb) s = .next (s.respond (.y (if x = y then 1 else 0)))
    ∧ exec (.lt f fb) s = .next (s.respond (.y (if x < y then 1 else 0)))
    ∧ exec (.le f fb) s = .next (s.respond (.y (if x ≤ y then 1 else 0)))
    ∧ exec (.gt f fb) s = .next (s.respond (.y (if y < x then 1 else 0)))
    ∧ exec (.ge f fb) s = .next (s.respond (.y (if y ≤ x then 1 else 0)))

/-- For every input, also outside the meaningful range, LE is the negation of GT and GE of LT, and
exchanging the operands with their counts exchanges LT and GT (the corner cases in section 3 of
44_compare.md). -/
def Obligations.OrderingsAreComplementary : Prop :=
  ∀ (f fb : Nat) (p : Params) (g h : Fxu p.width.bits),
    h.inp.command.a = g.inp.command.b → h.inp.command.b = g.inp.command.a →
    ∃ lt gt : Bool,
      exec (.lt f fb) ⟨p, g⟩ = .next ⟨p, g.respond (.y (if lt then 1 else 0))⟩
      ∧ exec (.ge f fb) ⟨p, g⟩ = .next ⟨p, g.respond (.y (if lt then 0 else 1))⟩
      ∧ exec (.gt f fb) ⟨p, g⟩ = .next ⟨p, g.respond (.y (if gt then 1 else 0))⟩
      ∧ exec (.le f fb) ⟨p, g⟩ = .next ⟨p, g.respond (.y (if gt then 0 else 1))⟩
      ∧ exec (.lt fb f) ⟨p, h⟩ = .next ⟨p, h.respond (.y (if gt then 1 else 0))⟩
end

