-- ==== Sys2Proof/Laws/State.lean ====
section
/-!
SUPPORT. What each named operation does to each field of the state, one lemma per field, all by `rfl`, so
that no later proof unfolds a record update.
-/

namespace Sys2Proof.Machine

variable {w : Nat} (f : Fxu w)

@[simp] theorem Fxu.respond_inp (r : Response w) : (f.respond r).inp = f.inp :=
  rfl

@[simp] theorem Fxu.respond_host (r : Response w) : (f.respond r).host = f.host :=
  rfl

@[simp] theorem Fxu.respond_offered (r : Response w) : (f.respond r).offered = f.offered :=
  rfl

@[simp] theorem Fxu.respond_cmdWait (r : Response w) : (f.respond r).cmdWait = f.cmdWait :=
  rfl

@[simp] theorem Fxu.respond_gaps (r : Response w) : (f.respond r).gaps = f.gaps :=
  rfl

@[simp] theorem Fxu.respond_lats (r : Response w) : (f.respond r).lats = f.lats.tail :=
  rfl

@[simp] theorem Fxu.respond_inflight (r : Response w) : (f.respond r).inflight = f.inflight ++ [⟨f.lats.headD 0, r⟩] :=
  rfl

@[simp] theorem Fxu.respond_accepted (r : Response w) : (f.respond r).accepted = f.accepted ++ [f.inp.command] :=
  rfl

@[simp] theorem Fxu.respond_delivered (r : Response w) : (f.respond r).delivered = f.delivered :=
  rfl

@[simp] theorem Fxu.respond_faults (r : Response w) : (f.respond r).faults = f.faults :=
  rfl

@[simp] theorem Fxu.edge_inp : (f.edge).inp = f.nextInp :=
  rfl

@[simp] theorem Fxu.edge_host : (f.edge).host = f.host.tail :=
  rfl

@[simp] theorem Fxu.edge_offered : (f.edge).offered = f.nextOffered :=
  rfl

@[simp] theorem Fxu.edge_cmdWait : (f.edge).cmdWait = (if f.cmdReady then f.gaps.headD 0 else f.cmdWait - 1) :=
  rfl

@[simp] theorem Fxu.edge_gaps : (f.edge).gaps = (if f.cmdReady then f.gaps.tail else f.gaps) :=
  rfl

@[simp] theorem Fxu.edge_lats : (f.edge).lats = f.lats :=
  rfl

@[simp] theorem Fxu.edge_inflight : (f.edge).inflight = f.nextInflight :=
  rfl

@[simp] theorem Fxu.edge_accepted : (f.edge).accepted = f.accepted :=
  rfl

@[simp] theorem Fxu.edge_delivered : (f.edge).delivered = f.delivered ++ f.taken :=
  rfl

@[simp] theorem Fxu.edge_faults : (f.edge).faults = f.faults ++ f.taken.filterMap Response.faultOf :=
  rfl

@[simp] theorem Fxu.resetEdge_inp : (f.resetEdge).inp = f.nextInp :=
  rfl

@[simp] theorem Fxu.resetEdge_host : (f.resetEdge).host = f.host.tail :=
  rfl

@[simp] theorem Fxu.resetEdge_offered : (f.resetEdge).offered = f.nextOffered :=
  rfl

@[simp] theorem Fxu.resetEdge_cmdWait : (f.resetEdge).cmdWait = f.gaps.headD 0 :=
  rfl

@[simp] theorem Fxu.resetEdge_gaps : (f.resetEdge).gaps = f.gaps.tail :=
  rfl

@[simp] theorem Fxu.resetEdge_lats : (f.resetEdge).lats = f.lats :=
  rfl

@[simp] theorem Fxu.resetEdge_inflight : (f.resetEdge).inflight = [] :=
  rfl

@[simp] theorem Fxu.resetEdge_accepted : (f.resetEdge).accepted = [] :=
  rfl

@[simp] theorem Fxu.resetEdge_delivered : (f.resetEdge).delivered = [] :=
  rfl

@[simp] theorem Fxu.resetEdge_faults :
    (f.resetEdge).faults = f.faults ++ f.inflight.filterMap fun p => p.rsp.faultOf :=
  rfl

@[simp] theorem State.respond_params (s : State) (r : Response s.w) : (s.respond r).params = s.params :=
  rfl

@[simp] theorem State.respond_fxu (s : State) (r : Response s.w) : (s.respond r).fxu = s.fxu.respond r :=
  rfl

@[simp] theorem State.edge_params (s : State) : (s.edge).params = s.params :=
  rfl

@[simp] theorem State.edge_fxu (s : State) : (s.edge).fxu = s.fxu.edge :=
  rfl

@[simp] theorem State.resetEdge_params (s : State) : (s.resetEdge).params = s.params :=
  rfl

@[simp] theorem State.resetEdge_fxu (s : State) : (s.resetEdge).fxu = s.fxu.resetEdge :=
  rfl

@[simp] theorem State.withFetchWord_params (s : State) (nbits n : Nat) :
    (s.withFetchWord nbits n).params = s.params :=
  rfl

@[simp] theorem State.withFetchWord_host (s : State) (nbits n : Nat) :
    (s.withFetchWord nbits n).fxu.host = s.fxu.host :=
  rfl

@[simp] theorem State.withFetchWord_offered (s : State) (nbits n : Nat) :
    (s.withFetchWord nbits n).fxu.offered = none :=
  rfl

@[simp] theorem State.withFetchWord_cmdWait (s : State) (nbits n : Nat) :
    (s.withFetchWord nbits n).fxu.cmdWait = 0 :=
  rfl

@[simp] theorem State.withFetchWord_gaps (s : State) (nbits n : Nat) :
    (s.withFetchWord nbits n).fxu.gaps = s.fxu.gaps :=
  rfl

@[simp] theorem State.withFetchWord_lats (s : State) (nbits n : Nat) :
    (s.withFetchWord nbits n).fxu.lats = s.fxu.lats :=
  rfl

@[simp] theorem State.withFetchWord_inflight (s : State) (nbits n : Nat) :
    (s.withFetchWord nbits n).fxu.inflight = s.fxu.inflight :=
  rfl

@[simp] theorem State.withFetchWord_accepted (s : State) (nbits n : Nat) :
    (s.withFetchWord nbits n).fxu.accepted = s.fxu.accepted :=
  rfl

@[simp] theorem State.withFetchWord_delivered (s : State) (nbits n : Nat) :
    (s.withFetchWord nbits n).fxu.delivered = s.fxu.delivered :=
  rfl

@[simp] theorem State.withFetchWord_faults (s : State) (nbits n : Nat) :
    (s.withFetchWord nbits n).fxu.faults = s.fxu.faults :=
  rfl

@[simp] theorem State.withFetchWord_inp_rst (s : State) (nbits n : Nat) :
    (s.withFetchWord nbits n).fxu.inp.rst = false :=
  rfl

@[simp] theorem State.withFetchWord_inp_cmdValid (s : State) (nbits n : Nat) :
    (s.withFetchWord nbits n).fxu.inp.cmdValid = true :=
  rfl

@[simp] theorem State.withFetchWord_inp_rspReady (s : State) (nbits n : Nat) :
    (s.withFetchWord nbits n).fxu.inp.rspReady = s.fxu.inp.rspReady :=
  rfl

@[simp] theorem State.withFetchWord_inp_command (s : State) (nbits n : Nat) :
    (s.withFetchWord nbits n).fxu.inp.command = { s.fxu.inp.command with cmd := BitVec.ofNat 19 (n % 2 ^ nbits) } :=
  rfl

end Sys2Proof.Machine
end

