-- ==== Sys2Proof/Laws/Ops.lean ====
section
/-!
SUPPORT. What a meaning, the end of a cycle and a step can do, said once each. Later proofs cite these
lemmas and unfold neither `exec` nor `step`.
-/

namespace Sys2Proof.Machine

/-- Different responses leave different states. -/
theorem State.respond_inj {s : State} {r r' : Response s.w} (h : s.respond r = s.respond r') : r = r' := by
  have h1 : s.fxu.respond r = s.fxu.respond r' := by simpa using h
  simpa using congrArg Fxu.inflight h1

/-- Every meaning accepts the presented command with one response, the one of `result`, and goes on. -/
theorem exec_result (i : Instr) (s : State) :
    exec i s = .next (s.respond (result s.signed i s.command)) := by
  cases i <;> simp only [exec, result]
  case fromflt f fb =>
    unfold execFromflt State.floatOperand
    cases fromFloat s.w s.signed f s.command.fa <;> rfl
  case div f fb => unfold execDiv; cases divide s.signed fb s.a s.b <;> rfl
  case mod f fb => unfold execMod; cases modulo s.signed s.a (realign s.signed s.b fb f) <;> rfl
  all_goals rfl

/-- Every meaning answers a next state. -/
theorem exec_responds (i : Instr) (s : State) : ∃ r, exec i s = .next (s.respond r) :=
  ⟨_, exec_result i s⟩

/-- The meaning of the presented command's operation gives the outcome of R27's function. -/
theorem exec_of_decode {s : State} {i : Instr} (h : decode s.command.cmd = .ok i) :
    exec i s = .next (s.respond (outcome s.signed s.command)) := by
  rw [exec_result]
  simp [outcome, h]

/-- An accepted command is answered with its outcome, and the cycle ends. -/
theorem step_of_accepts {s : State} (hh : s.fxu.held = true) (ha : s.fxu.accepts = true) :
    step s = .next (s.respond (outcome s.signed s.command)).edge := by
  have hr : s.fxu.inp.rst = false := by
    simp only [Fxu.accepts, Bool.and_eq_true, Bool.not_eq_true'] at ha
    exact ha.1.1
  unfold step
  rw [if_neg (by simp [hr]), if_pos hh, if_pos ha]
  cases hd : decode s.command.cmd with
  | ok i => simp [exec_of_decode hd, finishCycle]
  | error e => simp [State.raise, finishCycle, outcome, hd]

/-- A cycle without reset in which nothing is accepted only ends. -/
theorem step_of_not_accepts {s : State} (hr : s.fxu.inp.rst = false) (hh : s.fxu.held = true)
    (ha : s.fxu.accepts = false) : step s = .next s.edge := by
  unfold step
  rw [if_neg (by simp [hr]), if_pos hh, if_neg (by simp [ha])]

/-- A reset cycle. -/
theorem step_of_rst {s : State} (hr : s.fxu.inp.rst = true) : step s = .next s.resetEdge := by
  unfold step
  rw [if_pos hr]

/-- A cycle without reset, whether it accepts a command or not: the presented command joins those in
flight if it is accepted, and the cycle ends. -/
theorem step_of_not_rst {s : State} (hr : s.fxu.inp.rst = false) (hh : s.fxu.held = true) :
    step s = .next ⟨s.params,
      (if s.fxu.accepts then s.fxu.respond (outcome s.signed s.command) else s.fxu).edge⟩ := by
  cases ha : s.fxu.accepts with
  | true => simpa using step_of_accepts hh ha
  | false => simpa using step_of_not_accepts hr hh ha

/-- Everything a step can do: a reset edge, the acceptance and the end of the cycle, the end of the cycle
alone, or the one refusal. -/
theorem step_cases (s : State) :
    (s.fxu.inp.rst = true ∧ step s = .next s.resetEdge) ∨
    (s.fxu.inp.rst = false ∧ s.fxu.held = true ∧ s.fxu.accepts = true ∧
      step s = .next (s.respond (outcome s.signed s.command)).edge) ∨
    (s.fxu.inp.rst = false ∧ s.fxu.held = true ∧ s.fxu.accepts = false ∧ step s = .next s.edge) ∨
    (s.fxu.inp.rst = false ∧ s.fxu.held = false ∧ step s = .refused .commandNotHeld) := by
  cases hr : s.fxu.inp.rst with
  | true => exact .inl ⟨rfl, step_of_rst hr⟩
  | false =>
    cases hh : s.fxu.held with
    | false => exact .inr (.inr (.inr ⟨rfl, rfl, by unfold step; simp [hr, hh]⟩))
    | true =>
      cases ha : s.fxu.accepts with
      | true => exact .inr (.inl ⟨rfl, rfl, rfl, step_of_accepts hh ha⟩)
      | false => exact .inr (.inr (.inl ⟨rfl, rfl, rfl, step_of_not_accepts hr hh ha⟩))

/-- The end of a cycle takes the presented response, if the host takes it, from the front of the in-flight
commands, and changes the order of nothing. -/
theorem Fxu.edge_keeps_responses {w : Nat} (f : Fxu w) :
    f.taken ++ f.nextInflight.map Pending.rsp = f.inflight.map Pending.rsp := by
  unfold taken nextInflight takes rspValid presented
  cases h : f.inflight with
  | nil => cases f.inp.rspReady <;> simp
  | cons p ps =>
    by_cases hw : p.wait = 0 <;> cases f.inp.rspReady <;> simp [hw, Function.comp_def]

/-- What the end of a cycle does to the two lists when the presented response is taken. -/
theorem Fxu.edge_of_taken {w : Nat} {f : Fxu w} (hv : f.rspValid = true) (hr : f.inp.rspReady = true) :
    ∃ r, f.presented = some r ∧ f.taken = [r]
      ∧ f.inflight.map Pending.rsp = r :: f.nextInflight.map Pending.rsp := by
  obtain ⟨r, hp⟩ := Option.isSome_iff_exists.mp hv
  have ht : f.taken = [r] := by simp [taken, hr, hp]
  exact ⟨r, hp, ht, by rw [← f.edge_keeps_responses, ht, List.singleton_append]⟩

/-- The end of a cycle moves no response when none is presented or the host takes none. -/
theorem Fxu.edge_of_not_taken {w : Nat} {f : Fxu w} (h : f.takes = false) :
    f.taken = [] ∧ f.nextInflight.map Pending.rsp = f.inflight.map Pending.rsp := by
  have ht : f.taken = [] := by
    unfold taken
    cases hr : f.inp.rspReady with
    | false => rfl
    | true => simpa [takes, hr, rspValid] using h
  exact ⟨ht, by rw [← f.edge_keeps_responses, ht, List.nil_append]⟩

/-- Acceptance adds the outcome last. -/
theorem Fxu.respond_responses {w : Nat} (f : Fxu w) (r : Response w) :
    (f.respond r).inflight.map Pending.rsp = f.inflight.map Pending.rsp ++ [r] := by
  simp

/-- The host's run after a step that goes on. -/
theorem run_of_next (M : Host.Core) {k : Nat} {s t : M.State} (h : M.step s = .next t) :
    M.run (k + 1) s = M.run k t := by
  simp only [Host.Core.run, h]

/-- The host's run after a step that faults. -/
theorem run_of_fault (M : Host.Core) {k : Nat} {s : M.State} {r : M.Fault} (h : M.step s = .fault r) :
    M.run (k + 1) s = .fault r := by
  simp only [Host.Core.run, h]

/-- The host's run after a step that is refused. -/
theorem run_of_refused (M : Host.Core) {k : Nat} {s : M.State} {r : M.Refusal}
    (h : M.step s = .refused r) : M.run (k + 1) s = .refused r := by
  simp only [Host.Core.run, h]

/-- `runSteps` is the host's run of this machine. -/
theorem runSteps_eq_run (k : Nat) (s : State) : runSteps k s = Host.Core.run Sys2Proof.core k s := by
  induction k generalizing s with
  | zero => rfl
  | succ n ih =>
    cases h : step s with
    | next t =>
      have e : runSteps (n + 1) s = runSteps n t := by simp only [runSteps, h]
      exact (e.trans (ih t)).trans (run_of_next Sys2Proof.core h).symm
    | fault r =>
      have e : runSteps (n + 1) s = .fault r := by simp only [runSteps, h]
      exact e.trans (run_of_fault Sys2Proof.core h).symm
    | refused r =>
      have e : runSteps (n + 1) s = .refused r := by simp only [runSteps, h]
      exact e.trans (run_of_refused Sys2Proof.core h).symm

/-- One step first, then the rest of the run. -/
theorem runSteps_succ {k : Nat} {s t u : State} (h : step s = .next u) (hr : runSteps k u = .next t) :
    runSteps (k + 1) s = .next t := by
  simp only [runSteps, h, hr]

end Sys2Proof.Machine
end

