-- ==== Sys2Proof/Laws/PerInstr.lean ====
section
/-!
SUPPORT. Statements about every instruction as syntax, one lemma per constructor.
-/

namespace Sys2Proof.Laws.CommandWord

/-- The command word of a well-formed instruction is the number of R50, with no field cut short. -/
def Statement (i : Instr) : Prop :=
  i.wellFormed = true → (encode i).toNat = i.fb * 4096 + i.f * 32 + i.code

/-- Fields in their range make a number of 19 bits. -/
theorem toNat_of_fields {f fb c : Nat} (hf : f < 128) (hb : fb < 128) (hc : c < 32) :
    (BitVec.ofNat 19 (fb * 4096 + f * 32 + c)).toNat = fb * 4096 + f * 32 + c := by
  rw [BitVec.toNat_ofNat]
  omega

/-- What well-formedness says of the two fields. -/
theorem fields_of_wellFormed {i : Instr} (h : i.wellFormed = true) : i.f < 128 ∧ i.fb < 128 := by
  simpa [Instr.wellFormed] using h

/-- Every operation code fits 5 bits, so the statement holds of the instruction. -/
theorem of_code {i : Instr} (hc : i.code < 32) : Statement i := fun h =>
  toNat_of_fields (fields_of_wellFormed h).1 (fields_of_wellFormed h).2 hc

theorem clz (f fb : Nat) : Statement (.clz f fb) := of_code (by simp [Instr.code])
theorem sshr (f fb : Nat) : Statement (.sshr f fb) := of_code (by simp [Instr.code])
theorem sshl (f fb : Nat) : Statement (.sshl f fb) := of_code (by simp [Instr.code])
theorem mulshr (f fb : Nat) : Statement (.mulshr f fb) := of_code (by simp [Instr.code])
theorem fromint (f fb : Nat) : Statement (.fromint f fb) := of_code (by simp [Instr.code])
theorem fromflt (f fb : Nat) : Statement (.fromflt f fb) := of_code (by simp [Instr.code])
theorem toflt (f fb : Nat) : Statement (.toflt f fb) := of_code (by simp [Instr.code])
theorem cvt (f fb : Nat) : Statement (.cvt f fb) := of_code (by simp [Instr.code])
theorem add (f fb : Nat) : Statement (.add f fb) := of_code (by simp [Instr.code])
theorem sub (f fb : Nat) : Statement (.sub f fb) := of_code (by simp [Instr.code])
theorem mul (f fb : Nat) : Statement (.mul f fb) := of_code (by simp [Instr.code])
theorem div (f fb : Nat) : Statement (.div f fb) := of_code (by simp [Instr.code])
theorem neg (f fb : Nat) : Statement (.neg f fb) := of_code (by simp [Instr.code])
theorem mod (f fb : Nat) : Statement (.mod f fb) := of_code (by simp [Instr.code])
theorem abs (f fb : Nat) : Statement (.abs f fb) := of_code (by simp [Instr.code])
theorem eq (f fb : Nat) : Statement (.eq f fb) := of_code (by simp [Instr.code])
theorem lt (f fb : Nat) : Statement (.lt f fb) := of_code (by simp [Instr.code])
theorem le (f fb : Nat) : Statement (.le f fb) := of_code (by simp [Instr.code])
theorem gt (f fb : Nat) : Statement (.gt f fb) := of_code (by simp [Instr.code])
theorem ge (f fb : Nat) : Statement (.ge f fb) := of_code (by simp [Instr.code])

end Sys2Proof.Laws.CommandWord
end

