-- ==== Sys2Proof/Laws/Shift.lean ====
section
/-!
SUPPORT. What the shared functions of spec/40_bit_primitives.md do, one spec lemma each (R70 to R76): the
provers cite these and do not unfold the functions.
-/

namespace Sys2Proof.Machine

variable {w : Nat}

/-- `trunc_W(n)` as a number (R11). -/
@[simp] theorem trunc_toNat (n : Int) : (trunc w n).toNat = (n % (2 ^ w : Nat)).toNat :=
  BitVec.toNat_ofInt ..

/-- `neg_W` is the negation of the library. -/
@[simp] theorem negW_eq_neg (v : BitVec w) : negW v = -v := by
  unfold negW trunc
  rw [BitVec.ofInt_neg, BitVec.ofInt_natCast, BitVec.ofNat_toNat, BitVec.setWidth_eq]

/-- The zero contract (R70). -/
theorem ssr_zero_of_large (signed : Bool) (x : BitVec w) {k : Int} (h : w ≤ k.natAbs) :
    ssr signed x k = 0 := by
  unfold ssr
  rw [if_pos (by omega)]
  rfl

/-- A right shift within the width is the floor of the division by a power of two (R70). -/
theorem ssr_right (signed : Bool) (x : BitVec w) {k : Nat} (h : k < w) :
    ssr signed x (k : Int) = trunc w (val signed x / ((2 ^ k : Nat) : Int)) := by
  unfold ssr
  rw [if_neg (by omega), if_pos (by omega)]
  simp

/-- A left shift within the width is the wrapped product by a power of two (R70). -/
theorem ssr_left (signed : Bool) (x : BitVec w) {k : Nat} (h : k < w) (h0 : 0 < k) :
    ssr signed x (-(k : Int)) = BitVec.ofNat w (x.toNat * 2 ^ k) := by
  unfold ssr trunc
  rw [if_neg (by omega), if_neg (by omega), BitVec.ofInt_natCast]
  simp

/-- The shifter is the library's own shifts with the zero contract (R70). -/
theorem ssr_eq_nativeShift (signed : Bool) (x : BitVec w) (k : Int) :
    ssr signed x k = nativeShift signed x k := by
  unfold nativeShift
  split
  · next h => exact ssr_zero_of_large signed x h
  · next h =>
    split
    · next h0 =>
      obtain ⟨n, rfl⟩ := Int.eq_ofNat_of_zero_le h0
      rw [ssr_right signed x (by omega)]
      cases signed with
      | true =>
        apply BitVec.eq_of_toInt_eq
        simp only [trunc, val, if_true, BitVec.toInt_sshiftRight, Int.toNat_natCast]
        rw [Int.shiftRight_eq_div_pow, BitVec.toInt_ofInt]
        have h1 := BitVec.toInt_lt (x := x)
        have h2 := BitVec.le_toInt (x := x)
        rw [Int.bmod_eq_of_le_mul_two]
        · push_cast
          have : x.toInt / 2^n ≥ -2^(w-1) := by
            rw [ge_iff_le, Int.le_ediv_iff_mul_le (by positivity)]
            have : (1:Int) ≤ 2^n := one_le_pow₀ (by norm_num)
            have h3 : (0:Int) ≤ 2^(w-1) := by positivity
            nlinarith
          have e : (2:Int)^w = 2 * 2^(w-1) := by rw [← pow_succ']; congr 1; omega
          rw [e]; linarith
        · push_cast
          have : x.toInt / 2^n < 2^(w-1) := by
            rw [Int.ediv_lt_iff_lt_mul (by positivity)]
            have : (1:Int) ≤ 2^n := one_le_pow₀ (by norm_num)
            have h3 : (0:Int) ≤ 2^(w-1) := by positivity
            nlinarith
          have e : (2:Int)^w = 2 * 2^(w-1) := by rw [← pow_succ']; congr 1; omega
          rw [e]; linarith
      | false =>
        simp only [val, Bool.false_eq_true, if_false, Int.toNat_natCast]
        have e : ((x.toNat:Int)) / ((2^n:Nat):Int) = ((x.toNat / 2^n : Nat):Int) := by norm_cast
        rw [e]; unfold trunc; rw [BitVec.ofInt_natCast]
        apply BitVec.eq_of_toNat_eq
        rw [BitVec.toNat_ofNat, BitVec.toNat_ushiftRight, Nat.shiftRight_eq_div_pow]
        exact Nat.mod_eq_of_lt (lt_of_le_of_lt (Nat.div_le_self _ _) x.isLt)
    · next h0 =>
      obtain ⟨n, hn⟩ : ∃ n : Nat, k = -(n:Int) := ⟨k.natAbs, by omega⟩
      subst hn
      rw [ssr_left signed x (by omega) (by omega)]
      apply BitVec.eq_of_toNat_eq
      simp [Nat.shiftLeft_eq]

/-- Every legal width is even (R5). -/
theorem half_double (wd : Width) : 2 * (wd.bits / 2) = wd.bits := by cases wd <;> rfl

/-- The zero contract never changes a partial product's shifted value modulo `2^W` (R75 a). -/
theorem partialTerm_eq (p : Nat) (hp : p < 2^w) (k : Int) :
    partialTerm w p k % 2^w = shiftedTerm p k % 2^w := by
  unfold partialTerm shiftedTerm
  rw [ssr_eq_nativeShift]
  unfold nativeShift
  split
  · next h =>
    split
    · next h0 =>
      rw [Nat.div_eq_of_lt]; rfl
      refine lt_of_lt_of_le hp (Nat.pow_le_pow_right (by norm_num) (by omega))
    · next h0 =>
      have : (2:Nat)^(-k).toNat = 2^w * 2^((-k).toNat - w) := by rw [← pow_add]; congr 1; omega
      rw [this, ← mul_assoc, mul_comm p, mul_assoc]; simp
  · next h =>
    split
    · simp [Nat.shiftRight_eq_div_pow, Nat.mod_eq_of_lt hp]
    · simp [Nat.shiftLeft_eq, Nat.mod_mul_mod]

/-- The high half of an operand is below `2^H` (R73). -/
theorem half_lt (h : 2 * (w/2) = w) (x : BitVec w) : x.toNat / 2^(w/2) < 2^(w/2) := by
  rw [Nat.div_lt_iff_lt_mul (by positivity), ← pow_add]
  have := x.isLt
  rwa [show w/2 + w/2 = w by omega]

/-- `umulshr` is the sum of the shifted partial products, reduced once (R73, R75 a). -/
theorem umulshr_toNat (h : 2 * (w/2) = w) (a b : BitVec w) (k : Int) :
    (umulshr a b k).toNat = partialSum w a.toNat b.toNat k % 2^w := by
  unfold umulshr umulshrSum partialSum
  rw [BitVec.toNat_ofNat]
  unfold hiHalf loHalf Config.half
  have hm : ∀ x : Nat, x % 2^(w/2) < 2^(w/2) := fun x => Nat.mod_lt _ (by positivity)
  have pp : ∀ x y : Nat, x < 2^(w/2) → y < 2^(w/2) → x*y < 2^w := by
    intro x y hx hy
    calc x*y < 2^(w/2)*2^(w/2) := Nat.mul_lt_mul'' hx hy
      _ = 2^w := by rw [← pow_add]; congr 1; omega
  have t1 := partialTerm_eq (w:=w) _ (pp _ _ (half_lt h a) (half_lt h b)) (k-(w:Int))
  have t2 := partialTerm_eq (w:=w) _ (pp _ _ (half_lt h a) (hm b.toNat)) (k-((w/2:Nat):Int))
  have t3 := partialTerm_eq (w:=w) _ (pp _ _ (hm a.toNat) (half_lt h b)) (k-((w/2:Nat):Int))
  have t4 := partialTerm_eq (w:=w) _ (pp _ _ (hm a.toNat) (hm b.toNat)) k
  exact Nat.ModEq.add (Nat.ModEq.add (Nat.ModEq.add t1 t2) t3) t4

/-- The "is negative" bit is the sign of the stored integer (R74). -/
theorem isNeg_iff (signed : Bool) (x : BitVec w) : isNeg signed x = decide (val signed x < 0) := by
  unfold isNeg val
  cases signed <;> simp [BitVec.msb_eq_toInt]

/-- The magnitude vector holds the magnitude exactly, for the most negative value too (R74). -/
theorem mag_toNat (signed : Bool) (x : BitVec w) : (mag signed x).toNat = magNat signed x := by
  unfold mag magNat
  rw [isNeg_iff]
  unfold val
  cases signed with
  | false => simp [not_lt.mpr (Int.natCast_nonneg x.toNat)]
  | true =>
    simp only [if_true, decide_eq_true_eq, negW_eq_neg]
    split
    · next h =>
      have hx := x.isLt
      rw [BitVec.toInt_eq_toNat_cond] at *
      rw [BitVec.toNat_neg]
      split at h
      · omega
      · next h1 =>
        rw [if_neg h1]
        have : 0 < x.toNat := by omega
        rw [Nat.mod_eq_of_lt (by omega)]
        have : ((x.toNat:Int) - ((2^w:Nat):Int)).natAbs = 2^w - x.toNat := by omega
        exact this.symm
    · next h =>
      rw [BitVec.toInt_eq_toNat_cond] at *
      have hx := x.isLt
      split at h
      · next h1 => rw [if_pos h1]; omega
      · omega

/-- Applying the sign to a vector that holds a number modulo `2^W` (R74). -/
theorem applySign_eq (signed : Bool) (a b p : BitVec w) (q : Nat) (h : p.toNat = q % 2^w) :
   applySign signed a b p = withSign signed a b q := by
  have : p = BitVec.ofNat w q := BitVec.eq_of_toNat_eq (by simpa using h)
  unfold applySign withSign signsDiffer
  rw [isNeg_iff, isNeg_iff, this]
  simp

/-- `mulshr_S` on plain numbers (R74). -/
theorem mulshr_eq (h : 2 * (w/2) = w) (signed : Bool) (a b : BitVec w) (k : Int) :
    mulshr signed a b k = withSign signed a b (partialSum w (magNat signed a) (magNat signed b) k) := by
  unfold mulshr
  apply applySign_eq
  rw [umulshr_toNat h, mag_toNat, mag_toNat]

end Sys2Proof.Machine
end

