-- ==== Sys2Proof/Tests/Slice0.lean ====
section
/-!
SUPPORT. The model's own tests. Expected values are those of spec/95_test_vectors.md, whose vector each
theorem names, or are written out from the encoding rules R50 and R53. The last part shows, for each
statement with hypotheses, a concrete case that meets them all.
-/

namespace Sys2Proof.Tests

open Sys2Proof Sys2Proof.Machine

/-! ## Well-formedness and decoding -/

/-- R50: counts up to 127 fit their fields. -/
theorem test_wellFormed_largest_counts : (Instr.add 127 127).wellFormed = true := by decide

/-- R50: a count `F` of 128 does not fit 7 bits. -/
theorem test_illFormed_f : (Instr.add 128 0).wellFormed = false := by decide

/-- R50: a count `FB` of 128 does not fit 7 bits. -/
theorem test_illFormed_fb : (Instr.add 0 128).wellFormed = false := by decide

/-- R50, R53: `FB` = 0001000, `F` = 0010000, then the five bits of the code. -/
theorem test_decode_bits :
    decode 0b0001000_0010000_00000#19 = .ok (.clz 16 8)
      ∧ decode 0b0001000_0010000_00001#19 = .ok (.sshr 16 8)
      ∧ decode 0b0001000_0010000_00010#19 = .ok (.sshl 16 8)
      ∧ decode 0b0001000_0010000_00011#19 = .ok (.mulshr 16 8) := by
  decide

/-- R50, R53: `FB` = 0001000, `F` = 0010000, then the five bits of the code. -/
theorem test_decode_convert :
    decode 0b0001000_0010000_00100#19 = .ok (.fromint 16 8)
      ∧ decode 0b0001000_0010000_00101#19 = .ok (.fromflt 16 8)
      ∧ decode 0b0001000_0010000_00110#19 = .ok (.toflt 16 8)
      ∧ decode 0b0001000_0010000_00111#19 = .ok (.cvt 16 8) := by
  decide

/-- R50, R53: `FB` = 0001000, `F` = 0010000, then the five bits of the code. -/
theorem test_decode_arith :
    decode 0b0001000_0010000_01000#19 = .ok (.add 16 8)
      ∧ decode 0b0001000_0010000_01001#19 = .ok (.sub 16 8)
      ∧ decode 0b0001000_0010000_01010#19 = .ok (.mul 16 8)
      ∧ decode 0b0001000_0010000_01011#19 = .ok (.div 16 8)
      ∧ decode 0b0001000_0010000_01100#19 = .ok (.neg 16 8)
      ∧ decode 0b0001000_0010000_01101#19 = .ok (.mod 16 8)
      ∧ decode 0b0001000_0010000_01110#19 = .ok (.abs 16 8) := by
  decide

/-- R50, R53: `FB` = 0001000, `F` = 0010000, then the five bits of the code. -/
theorem test_decode_compare :
    decode 0b0001000_0010000_10000#19 = .ok (.eq 16 8)
      ∧ decode 0b0001000_0010000_10001#19 = .ok (.lt 16 8)
      ∧ decode 0b0001000_0010000_10010#19 = .ok (.le 16 8)
      ∧ decode 0b0001000_0010000_10011#19 = .ok (.gt 16 8)
      ∧ decode 0b0001000_0010000_10100#19 = .ok (.ge 16 8) := by
  decide

/-- R57: 0x0F, 0x15 and 0x1F are reserved; 0x14 is the last code before them. -/
theorem test_decode_reserved :
    decode 0x1020F#19 = .error (.reservedOp 0x0F) ∧ decode 0x00015#19 = .error (.reservedOp 0x15)
      ∧ decode 0x7FFFF#19 = .error (.reservedOp 0x1F) ∧ decode 0x00014#19 = .ok (.ge 0 0) := by
  decide

/-- R50, T-FL-5: the word with every count bit set. -/
theorem test_encode_all_ones : encode (.clz 127 127) = 0x7FFE0#19 := by decide

/-- R61, R63: canonical words. -/
theorem test_assemble_canonical :
    (assemble Instr.cvt [8, 16]).map encode = some 0x10107#19
      ∧ (assemble Instr.fromint [16]).map encode = some 0x00204#19
      ∧ (assemble Instr.neg []).map encode = some 0x0000C#19
      ∧ (assemble Instr.mul [32, 32]).map encode = some 0x2040A#19 := by
  decide

/-- R61, R62 (a): the text of an operation, and the default for an omitted `.FB`. -/
theorem test_assemble_default :
    (assemble Instr.add [16]).map Instr.text = some "ADD.16.16" ∧ assemble Instr.clz [1] = none
      ∧ assemble Instr.add [128] = none := by
  decide

/-- R8: "48.16" has 16 fractional bits on a 64-bit word. -/
theorem test_named_formats :
    Config.namedFormats.map (fun n => (n.params.width.bits, n.params.signed, n.fracBits))
      = [(32, false, 16), (64, false, 32), (64, false, 16), (32, true, 16), (64, true, 32),
        (64, true, 16)] := by
  decide

/-! ## One step of each operation -/

/-- What a step delivered first, with the width forgotten. -/
inductive Shown where
  | y (n : Nat)
  | fy (n : Nat)
  | fault (code : Nat)
  | nothing
deriving DecidableEq, Repr

/-- A response with the width forgotten. -/
def show1 {w : Nat} : Response w → Shown
  | .y v => .y v.toNat
  | .fy v => .fy v.toNat
  | .fault c => .fault c.code.toNat

/-- A command, its ports written as numbers. -/
def cmdOf (w cmd a b : Nat) (s : Int) (fa : Nat) : Command w :=
  ⟨BitVec.ofNat 19 cmd, BitVec.ofNat w a, BitVec.ofNat w b, BitVec.ofInt 9 s, BitVec.ofNat 64 fa⟩

/-- A block right after reset to which the command is presented. -/
def offer {w : Nat} (c : Command w) : Fxu w :=
  { Fxu.afterReset w with inp := ⟨false, true, c, true⟩ }

/-- An instance right after reset to which the command is presented. -/
def offered (wd : Width) (sg : Bool) (cmd a b : Nat) (s : Int) (fa : Nat) : State :=
  ⟨⟨wd, sg⟩, offer (cmdOf wd.bits cmd a b s fa)⟩

/-- The response that one step delivers to that command. -/
def answered (wd : Width) (sg : Bool) (cmd a b : Nat) (s : Int) (fa : Nat) : Shown :=
  match step (offered wd sg cmd a b s fa) with
  | .next t => (t.fxu.delivered.head?.map show1).getD .nothing
  | .fault _ => .nothing
  | .refused _ => .nothing

/-- T-BP-6. -/
theorem test_clz_zero_gives_width : answered .w8 false 0x00000 0x00 5 5 5 = .y 0x08 := by decide

/-- T-BP-11. -/
theorem test_clz_of_negative : answered .w32 true 0x00000 0xFFFFFFFF 5 5 5 = .y 0 := by decide

/-- T-BP-38. -/
theorem test_sshr_arithmetic : answered .w8 true 0x00001 0x80 5 7 5 = .y 0xFF := by decide

/-- T-BP-39. -/
theorem test_sshr_zero_contract : answered .w8 true 0x00001 0x80 5 8 5 = .y 0 := by decide

/-- T-BP-33. -/
theorem test_sshl_drops_high_bits : answered .w32 false 0x00002 0xC0000001 5 1 5 = .y 0x80000002 := by decide

/-- T-BP-37. -/
theorem test_sshl_least_amount : answered .w32 false 0x00002 1 5 (-256) 5 = .y 0 := by decide

/-- T-MS-27. -/
theorem test_mulshr_loses_partials : answered .w8 false 0x00003 0x13 0x1B 6 5 = .y 0x06 := by decide

/-- T-MS-17. -/
theorem test_mulshr_rounds_to_zero : answered .w32 true 0x00003 0xFFFFFFFF 1 1 5 = .y 0 := by decide

/-- T-CV-2. -/
theorem test_fromint_negative : answered .w32 true 0x00204 0xFFFFFFFD 5 5 5 = .y 0xFFFD0000 := by decide

/-- T-CV-6. -/
theorem test_fromint_count_of_width : answered .w32 false 0x00404 5 5 5 5 = .y 0 := by decide

/-- T-CV-26. -/
theorem test_fromflt_half_away : answered .w32 true 0x00205 5 5 5 0xBEE0000000000000 = .y 0xFFFFFFFF := by decide

/-- T-CV-34. -/
theorem test_fromflt_out_of_range : answered .w8 true 0x00085 5 5 5 0x401FE00000000000 = .fault 2 := by decide

/-- T-CV-38. -/
theorem test_toflt_negative : answered .w32 true 0x00206 0xFFFD8000 5 5 5 = .fy 0xC004000000000000 := by decide

/-- T-CV-49. -/
theorem test_toflt_tie_to_even : answered .w64 false 0x00206 0x0020000000000003 5 5 5 = .fy 0x4240000000000002 := by decide

/-- T-CV-56. -/
theorem test_cvt_floors : answered .w32 true 0x10107 5 0xFFFFFFFF 5 5 = .y 0xFFFFFFFF := by decide

/-- T-CV-53. -/
theorem test_cvt_widens : answered .w32 false 0x10307 5 0x00028000 5 5 = .y 0x02800000 := by decide

/-- T-AR-3. -/
theorem test_add_wraps : answered .w32 true 0x10208 0x7FFFFFFF 1 5 5 = .y 0x80000000 := by decide

/-- T-AR-6. -/
theorem test_add_floors_before_adding : answered .w32 false 0x18208 0x00030000 0x04000001 5 5 = .y 0x00070000 := by decide

/-- T-AR-2. -/
theorem test_sub_wraps : answered .w32 false 0x10209 0x00030000 0x00040000 5 5 = .y 0xFFFF0000 := by decide

/-- T-AR-8. -/
theorem test_sub_negative_realigned : answered .w32 true 0x18209 0x00030000 0xFF000000 5 5 = .y 0x00040000 := by decide

/-- T-AR-20. -/
theorem test_mul_signs : answered .w16 true 0x0810A 0xFE80 0x0280 5 5 = .y 0xFC40 := by decide

/-- T-FL-7. -/
theorem test_mul_reads_fb_only : answered .w32 false 0x1000A 0x00028000 0x00040000 0 0 = .y 0x000A0000 := by decide

/-- T-DV-28. -/
theorem test_div_inexact : answered .w8 false 0x0000B 0x64 0x0A 5 5 = .y 0x09 := by decide

/-- T-DV-32. -/
theorem test_div_by_zero : answered .w8 false 0x0408B 0x50 0 5 5 = .fault 1 := by decide

/-- T-AR-23. -/
theorem test_neg_wraps : answered .w32 true 0x0000C 0x80000000 5 5 5 = .y 0x80000000 := by decide

/-- T-FL-6. -/
theorem test_neg_ignores_the_rest : answered .w32 false 0x7FFEC 0x00030000 0xDEADBEEF 5 1 = .y 0xFFFD0000 := by decide

/-- T-AR-32. -/
theorem test_mod_sign_of_dividend : answered .w32 true 0x1020D 0xFFF88000 0x00020000 5 5 = .y 0xFFFE8000 := by decide

/-- T-AR-37. -/
theorem test_mod_divisor_floors_to_zero : answered .w32 false 0x1820D 0x00078000 1 5 5 = .fault 1 := by decide

/-- T-AR-28. -/
theorem test_abs_stays_negative : answered .w32 true 0x0000E 0x80000000 5 5 5 = .y 0x80000000 := by decide

/-- T-AR-26. -/
theorem test_abs_of_negative : answered .w32 true 0x0000E 0xFFFD0000 5 5 5 = .y 0x00030000 := by decide

/-- T-CM-6. -/
theorem test_eq_two_scales : answered .w32 true 0x08210 0xFFFD8000 0xFFFFFD80 5 5 = .y 1 := by decide

/-- T-CM-4. -/
theorem test_eq_after_rounding_only : answered .w32 false 0x08210 0x00028001 0x00000280 5 5 = .y 0 := by decide

/-- T-CM-8. -/
theorem test_lt_below_zero : answered .w32 true 0x10211 0xFFFFFFFF 0 5 5 = .y 1 := by decide

/-- T-CM-12. -/
theorem test_lt_wide_counts : answered .w32 false 0x003F1 1 1 5 5 = .y 1 := by decide

/-- T-CM-3. -/
theorem test_le_tie : answered .w32 false 0x08212 0x00028000 0x00000280 5 5 = .y 1 := by decide

/-- T-CM-4. -/
theorem test_le_greater_by_an_ulp : answered .w32 false 0x08212 0x00028001 0x00000280 5 5 = .y 0 := by decide

/-- T-CM-9. -/
theorem test_gt_negative_fractions : answered .w32 true 0x08213 0xFFFFFFFF 0xFFFFFFFF 5 5 = .y 1 := by decide

/-- T-CM-11. -/
theorem test_gt_unsigned : answered .w32 false 0x10213 0x80000000 0x7FFFFFFF 5 5 = .y 1 := by decide

/-- T-CM-10. -/
theorem test_ge_signed : answered .w32 true 0x10214 0x80000000 0x7FFFFFFF 5 5 = .y 0 := by decide

/-- T-CM-2. -/
theorem test_ge_tie : answered .w32 false 0x10214 0x00030000 0x00030000 5 5 = .y 1 := by decide

/-- T-FL-4. -/
theorem test_reserved_code : answered .w32 false 0x7FFEF 0 0 0 0 = .fault 3 := by decide

/-! ## The channels -/

/-- ADD.16.16 of 3 and 4 on U16_16 (T-EX-4). -/
def add34 : Command 32 := cmdOf 32 0x10208 0x00030000 0x00040000 0 0

/-- CLZ of 0x00008000 on U16_16 (T-EX-16). -/
def clz15 : Command 32 := cmdOf 32 0x00000 0x00008000 0 0 0

/-- A U16_16 block whose two commands in flight have latencies 1 and 0, and whose host takes nothing. -/
def twoInFlight : Fxu 32 :=
  { Fxu.afterReset 32 with
    inp := ⟨false, false, add34, false⟩
    inflight := [⟨1, .y 0x00070000#32⟩, ⟨0, .y 16#32⟩]
    accepted := [add34, clz15] }

/-- The unsigned 32-bit instance. -/
def u32 : Params := ⟨.w32, false⟩

/-- What a state shows after a step: `rsp_valid`, the number in flight, and what was delivered. -/
def after (o : Host.Outcome State Fault Refusal) : Option (Bool × Nat × List Shown) :=
  match o with
  | .next t => some (t.fxu.rspValid, t.fxu.inflight.length, t.fxu.delivered.map show1)
  | .fault _ => none
  | .refused _ => none

/-- R45: the second response is ready first and still waits for the first. -/
theorem test_responses_keep_their_order :
    twoInFlight.presented = none ∧ after (runSteps 1 ⟨u32, twoInFlight⟩) = some (true, 2, [])
      ∧ after (runSteps 3 ⟨u32, twoInFlight⟩) = some (false, 0, [.y 0x00070000, .y 16]) := by
  decide

/-- R199: a latency of 2 presents the response two cycles after the cycle of acceptance. -/
theorem test_latency_delays_the_response :
    after (runSteps 1 ⟨u32, { offer add34 with lats := [2] }⟩) = some (false, 1, [])
      ∧ after (runSteps 2 ⟨u32, { offer add34 with lats := [2] }⟩) = some (true, 1, [])
      ∧ after (runSteps 3 ⟨u32, { offer add34 with lats := [2] }⟩)
        = some (false, 0, [.y 0x00070000]) := by
  decide

/-- R190: reset discards what is in flight, and the command presented in the reset cycle is not taken. -/
theorem test_reset_discards :
    after (step ⟨u32, { twoInFlight with inp := ⟨true, true, add34, false⟩ }⟩) = some (false, 0, []) := by
  decide

/-- R191, R194: a command offered while `cmd_ready` is 0 for two cycles is held and then accepted. -/
theorem test_offered_command_waits :
    after (runSteps 2 ⟨u32, { offer add34 with cmdWait := 2 }⟩) = some (false, 0, [])
      ∧ after (runSteps 3 ⟨u32, { offer add34 with cmdWait := 2 }⟩)
        = some (false, 0, [.y 0x00070000]) := by
  decide

/-- U16: withdrawing an offered command is refused. -/
theorem test_withdrawn_command_is_refused :
    (match step ⟨u32, { Fxu.afterReset 32 with offered := some add34 }⟩ with
      | .refused .commandNotHeld => true
      | _ => false) = true := by
  decide

/-- P4 of the vectors: the fault is a response, the block goes on, and the record keeps the fault and its
index, counted from 0 (R179, R180, R195, log entry 16). -/
theorem test_block_goes_on_after_a_fault :
    (match runSteps 2 ⟨u32, { offer (cmdOf 32 0x1020B 0x00050000 0 0 0) with
        host := [⟨false, true, add34, true⟩] }⟩ with
      | .next t => (t.fxu.delivered.map show1, firstFault t.fxu.delivered, t.clean)
      | _ => ([], none, true)) = ([.fault 1, .y 0x00070000], some (0, .divisionByZero), false) := by
  decide

/-- R180: a reset does not clear the record of faults, neither of the response that the host takes at the
reset edge nor of one that the reset discards. -/
theorem test_faults_outlive_reset :
    (match step ⟨u32, { twoInFlight with
        inp := ⟨true, false, add34, true⟩
        inflight := [⟨0, .fault .convInvalid⟩, ⟨5, .fault .divisionByZero⟩] }⟩ with
      | .next t => (t.fxu.delivered.map show1, t.fxu.faults, t.clean)
      | _ => ([], [], true)) = ([], [.convInvalid, .divisionByZero], false) := by
  decide

/-- `withFetchWord` presents the word so that the next step runs it. -/
theorem test_fetch_word_runs :
    after (step (State.reset.withFetchWord 24 0x00000)) = some (false, 0, [.y 32]) := by
  decide

/-! ## Cases that meet the hypotheses of the statements -/

theorem witness_DecodeOfEncode : (Instr.ge 127 0).wellFormed = true := by decide

theorem witness_EncodeOfDecode : decode 0x7FFE8#19 = .ok (.add 127 127) := by decide

theorem witness_AssemblerDefaultsFBToF :
    Instr.mul ∈ [Instr.cvt, .add, .sub, .mul, .div, .mod, .eq, .lt, .le, .gt, .ge] ∧ 127 < 128 := by
  exact ⟨by simp, by decide⟩

theorem witness_StepRunsTheDecodedInstruction :
    (offered .w32 false 0x10208 1 2 0 0).fxu.inp.rst = false
      ∧ (offered .w32 false 0x10208 1 2 0 0).fxu.held = true
      ∧ (offered .w32 false 0x10208 1 2 0 0).fxu.inp.cmdValid = true
      ∧ (offered .w32 false 0x10208 1 2 0 0).fxu.cmdWait = 0
      ∧ decode (offered .w32 false 0x10208 1 2 0 0).command.cmd = .ok (.add 16 16) := by
  decide

theorem witness_FetchWordRunsNext :
    decodeTableWord 24 0x10208 = some (.add 16 16) ∧ decodeTableWord 24 0x1020F = none := by
  decide

theorem witness_StepAnswersWithTheOutcome :
    (offer add34).held = true ∧ (offer add34).accepts = true := by
  decide

theorem witness_ReservedCodesAreIllegal :
    ((offered .w8 true 0x7FFEF 0 0 0 0).command.cmd.extractLsb' 0 5).toNat = 0x0F
      ∧ ((offered .w8 true 0x7FFF5 0 0 0 0).command.cmd.extractLsb' 0 5).toNat = 0x15
      ∧ ((offered .w8 true 0x7FFF4 0 0 0 0).command.cmd.extractLsb' 0 5).toNat = 0x14
      ∧ (offered .w8 true 0x7FFEF 0 0 0 0).fxu.held = true
      ∧ (offered .w8 true 0x7FFEF 0 0 0 0).fxu.accepts = true := by
  decide

theorem witness_FrameOfEveryOperation : ∃ t, exec (.div 0 0) (offered .w8 true 0x0B 6 3 0 0) = .next t :=
  ⟨_, exec_result _ _⟩

theorem witness_ResetEdgeDiscardsEverything :
    ({ twoInFlight with inp := ⟨true, true, add34, false⟩ } : Fxu 32).inp.rst = true := by
  decide

theorem witness_OutputsOfAPresentedResponse :
    ({ Fxu.afterReset 8 with inflight := [⟨0, .y 5#8⟩] } : Fxu 8).presented = some (.y 5#8)
      ∧ ({ Fxu.afterReset 8 with inflight := [⟨0, .fault .convInvalid⟩] } : Fxu 8).presented
        = some (.fault .convInvalid)
      ∧ (Response.fault (w := 8) .convInvalid).faultField ≠ 0#2
      ∧ (Response.y 5#8).faultField = 0#2 := by
  decide

theorem witness_InstanceConstantsNeverChange : ∃ t, step State.reset = .next t :=
  ⟨_, step_of_not_accepts (by decide) (by decide) (by decide)⟩

theorem witness_StopsOnlyForABrokenHost :
    ({ Fxu.afterReset 32 with offered := some add34 } : Fxu 32).inp.rst = false
      ∧ ({ Fxu.afterReset 32 with offered := some add34 } : Fxu 32).offered = some add34
      ∧ ¬(({ Fxu.afterReset 32 with offered := some add34 } : Fxu 32).inp.cmdValid = true)
      ∧ (offer add34).offered = none := by
  decide

/-- No command presented, `cmd_ready` at 0, and a cycle that accepts nothing while it presents a response
that the host takes. -/
theorem witness_NoHandshakeNoAcceptance :
    (Fxu.afterReset 8).inp.rst = false ∧ (Fxu.afterReset 8).held = true
      ∧ (Fxu.afterReset 8).inp.cmdValid = false ∧ (Fxu.afterReset 8).rspValid = false
      ∧ ({ offer add34 with cmdWait := 1 } : Fxu 32).inp.rst = false
      ∧ ({ offer add34 with cmdWait := 1 } : Fxu 32).held = true
      ∧ ({ offer add34 with cmdWait := 1 } : Fxu 32).cmdReady = false
      ∧ ({ offer add34 with cmdWait := 1, inflight := [⟨0, .y 16#32⟩] } : Fxu 32).inp.rst = false
      ∧ ({ offer add34 with cmdWait := 1, inflight := [⟨0, .y 16#32⟩] } : Fxu 32).held = true
      ∧ ({ offer add34 with cmdWait := 1, inflight := [⟨0, .y 16#32⟩] } : Fxu 32).cmdReady = false
      ∧ ({ offer add34 with cmdWait := 1, inflight := [⟨0, .y 16#32⟩] } : Fxu 32).rspValid = true
      ∧ ({ offer add34 with cmdWait := 1, inflight := [⟨0, .y 16#32⟩] } : Fxu 32).inp.rspReady = true := by
  decide

theorem witness_EveryStepKeepsResponseOrder :
    (⟨u32, twoInFlight⟩ : State).InOrder ∧ ∃ t, step ⟨u32, twoInFlight⟩ = .next t :=
  ⟨by unfold State.InOrder; decide, _, step_of_not_accepts (by decide) (by decide) (by decide)⟩

theorem witness_NthResponseAnswersNthCommand :
    (⟨u32, twoInFlight⟩ : State).InOrder ∧ ∃ t, runSteps 1 ⟨u32, twoInFlight⟩ = .next t :=
  ⟨by unfold State.InOrder; decide, _,
    runSteps_succ (step_of_not_accepts (by decide) (by decide) (by decide)) rfl⟩

theorem witness_OutcomeIgnoresHistory :
    (offer add34).held = true ∧ (offer add34).accepts = true
      ∧ ({ twoInFlight with inp := ⟨false, true, add34, true⟩ } : Fxu 32).held = true
      ∧ ({ twoInFlight with inp := ⟨false, true, add34, true⟩ } : Fxu 32).accepts = true
      ∧ (offer add34).inp.command
        = ({ twoInFlight with inp := ⟨false, true, add34, true⟩ } : Fxu 32).inp.command := by
  decide

theorem witness_UnreadInputsAreIgnored :
    sameRead (.mul 3 16) (.mul 9 16)
      ∧ agreeOn (.mul 3 16) (cmdOf 32 0x0A 7 8 1 2) (cmdOf 32 0x1F 7 8 3 4) := by
  unfold sameRead agreeOn
  decide

theorem witness_EveryCommandIsAnswered :
    ({ offer add34 with cmdWait := 2, lats := [3] } : Fxu 32).inp.rst = false
      ∧ ({ offer add34 with cmdWait := 2, lats := [3] } : Fxu 32).host = []
      ∧ ({ offer add34 with cmdWait := 2, lats := [3] } : Fxu 32).held = true := by
  decide

/-- A response in flight already, and one presented in its cycle of acceptance (R199, `LAT = 0`). -/
theorem witness_UntakenResponseIsHeld :
    ({ twoInFlight with inflight := [⟨0, .y 16#32⟩] } : Fxu 32).inp.rst = false
      ∧ ({ twoInFlight with inflight := [⟨0, .y 16#32⟩] } : Fxu 32).held = true
      ∧ ({ twoInFlight with inflight := [⟨0, .y 16#32⟩] } : Fxu 32).accepts = false
      ∧ ({ twoInFlight with inflight := [⟨0, .y 16#32⟩] } : Fxu 32).presented = some (.y 16#32)
      ∧ ({ twoInFlight with inflight := [⟨0, .y 16#32⟩] } : Fxu 32).inp.rspReady = false
      ∧ ({ offer add34 with inp := ⟨false, true, add34, false⟩ } : Fxu 32).held = true
      ∧ ({ offer add34 with inp := ⟨false, true, add34, false⟩ } : Fxu 32).accepts = true
      ∧ (({ offer add34 with inp := ⟨false, true, add34, false⟩ } : Fxu 32).respond
          (outcome false add34)).presented = some (.y 0x00070000#32) := by
  decide

/-- A response presented and taken, one not taken, and none presented. -/
theorem witness_TakenResponseIsDelivered :
    (offer add34).inp.rst = false ∧ (offer add34).held = true ∧ (offer add34).accepts = true
      ∧ ((offer add34).respond (outcome false add34)).rspValid = true ∧ (offer add34).inp.rspReady = true
      ∧ twoInFlight.inp.rst = false ∧ twoInFlight.held = true ∧ twoInFlight.accepts = false
      ∧ twoInFlight.rspValid = false ∧ twoInFlight.inp.rspReady = false := by
  decide

/-- A block whose records hold a fault, and which has another in flight. -/
def faulted : Fxu 32 :=
  { twoInFlight with
    inflight := [⟨0, .fault .divisionByZero⟩]
    delivered := [.fault .convInvalid]
    faults := [.convInvalid] }

theorem witness_RecordedFaultsStay :
    faulted.inp.rst = false ∧ (⟨u32, faulted⟩ : State).clean = false
      ∧ (firstFault faulted.delivered).isSome = true ∧ ∃ t, runSteps 1 ⟨u32, faulted⟩ = .next t :=
  ⟨by decide, by decide, by decide, _,
    runSteps_succ (step_of_not_accepts (by decide) (by decide) (by decide)) rfl⟩

theorem witness_EveryFaultMetIsRecorded :
    (∃ c, step ⟨u32, faulted⟩ = .next ⟨u32, c⟩) ∧ faulted.inp.rst = false
      ∧ ∃ c, step ⟨u32, { faulted with inp := ⟨true, false, add34, true⟩ }⟩ = .next ⟨u32, c⟩ :=
  ⟨⟨_, step_of_not_accepts (by decide) (by decide) (by decide)⟩, by decide, _, step_of_rst (by decide)⟩

theorem witness_EveryStepKeepsFaultsRecorded :
    (⟨u32, faulted⟩ : State).FaultsRecorded ∧ ∃ t, step ⟨u32, faulted⟩ = .next t :=
  ⟨by unfold State.FaultsRecorded; decide, _, step_of_not_accepts (by decide) (by decide) (by decide)⟩

theorem witness_ClzCountsLeadingZeros :
    (offered .w8 true 0 0 0 0 0).a = 0 ∧ (offered .w8 true 0 1 0 0 0).a ≠ 0
      ∧ (offered .w8 true 0 0x80 0 0 0).a ≠ 0 := by
  decide

/-- The amounts at which the clauses meet: 0, `W/2`, `W`, and the ends of the port's range. -/
theorem witness_MulshrShortfallAtMostThree :
    (offered .w8 false 3 0xFF 0xFF 0 0).command.s.toInt = 0
      ∧ (offered .w8 false 3 0xFF 0xFF 4 0).command.s.toInt = 4
      ∧ (offered .w8 false 3 0xFF 0xFF 8 0).command.s.toInt = 8
      ∧ (offered .w8 false 3 0xFF 0xFF 255 0).command.s.toInt = 255
      ∧ (offered .w8 false 3 0xFF 0xFF (-256) 0).command.s.toInt = -256 := by
  decide

/-- Each clause at its boundary: an infinity, a subnormal, the least and the greatest normal exponent. -/
theorem witness_FloatFieldsGiveTheValue :
    (0x7FF0000000000000#64).extractLsb' 52 11 = 2047#11 ∧ (0x0000000000000001#64).extractLsb' 52 11 = 0#11
      ∧ (0x0010000000000000#64).extractLsb' 52 11 = 1#11
      ∧ (0x7FE0000000000000#64).extractLsb' 52 11 = 2046#11 := by
  decide

theorem witness_TofltRoundsToNearestEven :
    127 < 128 ∧ realOf true 127 (0x00#8) = 0 ∧ realOf true 0 (0xFF#8) ≠ 0 := by
  refine ⟨by decide, ?_, ?_⟩
  · rw [realOf, show val true (0x00#8) = 0 by decide]; simp
  · rw [realOf, show val true (0xFF#8) = -1 by decide]; norm_num

/-- The greatest odd significand, and magnitudes above it: `2^53` and the most negative integer. -/
theorem witness_FloatRoundTripIsExact :
    127 < 128 ∧ 2 ^ 53 - 1 < 2 ^ 53
      ∧ magNat true (offer (cmdOf 64 0x06 0xFFE0000000000001 0 0 0)).inp.command.a = (2 ^ 53 - 1) * 2 ^ 0
      ∧ magNat true (offer (cmdOf 64 0x06 0x0020000000000000 0 0 0)).inp.command.a = 1 * 2 ^ 53
      ∧ magNat true (offer (cmdOf 64 0x06 0x8000000000000000 0 0 0)).inp.command.a = 1 * 2 ^ 63
      ∧ (offer (cmdOf 64 0x05 0 0 0 0xC32FFFFFFFFFFFFF)).inp.command.fa
        = floatEncode (val true (offer (cmdOf 64 0x06 0xFFE0000000000001 0 0 0)).inp.command.a) 1 := by
  decide

theorem witness_FromfltErrorAtMostHalfUlp :
    ∃ v, exec (.fromflt 16 0) (offered .w32 false 0x205 0 0 0 0x3FB999999999999A)
      = .next ((offered .w32 false 0x205 0 0 0 0x3FB999999999999A).respond (.y v)) :=
  ⟨0x199A#32, rfl⟩

theorem witness_MulByPowerOfTwoIsExact :
    (offered .w8 false 0x0A 3 0x80 0 0).signed = false ∧ 7 < (offered .w8 false 0x0A 3 0x80 0 0).w
      ∧ (offer (cmdOf 8 0x0A 3 0x80 0 0)).inp.command.b = BitVec.ofNat 8 (2 ^ 7) := by
  decide

theorem witness_ModIsTruncatedRemainder :
    nativeShift false (1#32) ((24 : Int) - 16) = 0 ∧ nativeShift true (0x00020000#32) ((16 : Int) - 16) ≠ 0 := by
  decide

/-- "1" at the greatest count for which it is representable, signed and unsigned. -/
theorem witness_IdentityLaws :
    (offer (cmdOf 8 0x0A 5 0x40 0 0)).inp.command.b = BitVec.ofNat 8 (2 ^ 6) ∧ 6 + 2 ≤ 8
      ∧ (offer (cmdOf 8 0x0A 5 0x80 0 0)).inp.command.b = BitVec.ofNat 8 (2 ^ 7) ∧ 7 + 1 ≤ 8
      ∧ (offer (cmdOf 8 0x09 5 5 0 0)).inp.command.b = (offer (cmdOf 8 0x09 5 5 0 0)).inp.command.a
      ∧ (offer (cmdOf 8 0x08 5 0 0 0)).inp.command.b = 0 := by
  decide

theorem witness_NegatedOperandNegatesTheResult :
    (offer (cmdOf 8 0x0B 0x81 3 0 0)).inp.command.a ≠ BitVec.intMin 8
      ∧ (offer (cmdOf 8 0x0B 0x7F 3 0 0)).inp.command.a
        = -(offer (cmdOf 8 0x0B 0x81 3 0 0)).inp.command.a
      ∧ (offer (cmdOf 8 0x0B 0x7F 3 0 0)).inp.command.b = (offer (cmdOf 8 0x0B 0x81 3 0 0)).inp.command.b
      ∧ (offer (cmdOf 8 0x0B 0x81 3 0 0)).inp.command.b ≠ 0 := by
  decide

theorem witness_DivisionByZeroFaults :
    (offered .w8 true 0x0B 5 0 0 0).b = 0 ∧ (offered .w8 true 0x0B 5 1 0 0).b ≠ 0
      ∧ (offered .w8 true 0x0D 5 1 0 0).w ≤ ((12 : Int) - 4).natAbs := by
  decide

theorem witness_DivFollowsTheFiveSteps :
    (offered .w8 true 0x0B 5 0 0 0).b = 0 ∧ (offered .w8 true 0x0B 5 0x80 0 0).b ≠ 0 := by
  decide

theorem witness_QuotientNeverExceedsTheExact :
    (offered .w8 false 0x0B 0xFF 1 0 0).b ≠ 0
      ∧ exactQuotient false 0 (offered .w8 false 0x0B 0xFF 1 0 0).a (offered .w8 false 0x0B 0xFF 1 0 0).b
        < 2 ^ 8 := by
  decide

theorem witness_DivByPowerOfTwoIsExact :
    magNat true (offered .w8 true 0x0B 5 0x80 0 0).b = 2 ^ 7 := by
  decide

theorem witness_SurplusRoundsChangeNothing :
    (0x80#8).msb = true ∧ (0xFF#8).msb = true ∧ roundBound .w8 ≤ 4 := by
  decide

/-- The four numbers where the first stage decides, -1 against 0, and where it ties and the second
decides, 2.5 against 2.25. -/
theorem witness_OrderingsCompareInTwoStages :
    val true (nativeIntegral true 4 (0xFF#8)) = -1 ∧ val true (nativeIntegral true 4 (0x00#8)) = 0
      ∧ val true (nativeIntegral true 4 (0x28#8)) = 2 ∧ val true (nativeIntegral true 2 (0x09#8)) = 2
      ∧ (nativeFraction true 4 (0x28#8)).toNat = 128 ∧ (nativeFraction true 2 (0x09#8)).toNat = 64 := by
  decide

/-- The greatest counts in range, on a signed and on an unsigned instance. -/
theorem witness_ComparisonsAgreeWithRealOrder : countInRange 8 true 7 ∧ countInRange 8 false 8 := by
  unfold countInRange
  decide

theorem witness_OrderingsAreComplementary :
    (offer (cmdOf 8 0x11 4 3 0 0)).inp.command.a = (offer (cmdOf 8 0x11 3 4 0 0)).inp.command.b
      ∧ (offer (cmdOf 8 0x11 4 3 0 0)).inp.command.b = (offer (cmdOf 8 0x11 3 4 0 0)).inp.command.a := by
  decide

end Sys2Proof.Tests
end

section
/-!
PROOFS. The order of responses (spec/20_memory.md R45): every step keeps it, so every run does, and what an
ordered state says of its n-th response.
-/

namespace Sys2Proof.Machine

/-! ## Runs -/

/-- A run of `k + 1` steps that goes on is a step that goes on and a run of `k` from there. -/
theorem runSteps_succ_eq_next_iff {k : Nat} {s t : State} :
    runSteps (k + 1) s = .next t ↔ ∃ u, step s = .next u ∧ runSteps k u = .next t := by
  cases h : step s <;> simp [runSteps, h]

/-- What every step keeps, every run keeps. -/
theorem runSteps_keeps {P : State → Prop} (hstep : ∀ s t, P s → step s = .next t → P t) {k : Nat}
    {s t : State} (hs : P s) (hrun : runSteps k s = .next t) : P t := by
  induction k generalizing s with
  | zero =>
    cases hrun
    exact hs
  | succ k ih =>
    obtain ⟨u, hu, hrest⟩ := runSteps_succ_eq_next_iff.mp hrun
    exact ih (hstep s u hs hu) hrest

/-! ## The order invariant -/

namespace State.InOrder

/-- Nothing is accepted and nothing owed after a reset edge. -/
theorem resetEdge (s : State) : s.resetEdge.InOrder := by
  simp [State.InOrder]

/-- An accepted command and its outcome both join last. -/
theorem respond_outcome {s : State} (h : s.InOrder) :
    (s.respond (outcome s.signed s.command)).InOrder := by
  unfold State.InOrder at h ⊢
  simp [← h]

/-- The end of a cycle only moves the oldest response owed to the end of those delivered. -/
theorem edge {s : State} (h : s.InOrder) : s.edge.InOrder := by
  unfold State.InOrder at h ⊢
  rw [← s.fxu.edge_keeps_responses] at h
  simpa using h

/-- Every step keeps the order of responses. -/
theorem step {s t : State} (h : s.InOrder) (hst : step s = .next t) : t.InOrder := by
  obtain ⟨-, e⟩ | ⟨-, -, -, e⟩ | ⟨-, -, -, e⟩ | ⟨-, -, e⟩ := step_cases s <;>
    rw [e] at hst <;> cases hst
  · exact resetEdge s
  · exact h.respond_outcome.edge
  · exact h.edge

/-- The `n`-th response, delivered or owed, is the outcome of the `n`-th accepted command. -/
theorem exists_accepted {s : State} (h : s.InOrder) {n : Nat} {r : Response s.w}
    (hr : (s.fxu.delivered ++ s.fxu.inflight.map Pending.rsp)[n]? = some r) :
    ∃ c, s.fxu.accepted[n]? = some c ∧ r = outcome s.signed c := by
  unfold State.InOrder at h
  rw [h, List.getElem?_map, Option.map_eq_some_iff] at hr
  obtain ⟨c, hc, hrc⟩ := hr
  exact ⟨c, hc, hrc.symm⟩

/-- The `n`-th response delivered answers the `n`-th command accepted. -/
theorem delivered_answers {s : State} (h : s.InOrder) {n : Nat} {r : Response s.w}
    (hr : s.fxu.delivered[n]? = some r) :
    ∃ c, s.fxu.accepted[n]? = some c ∧ r = outcome s.signed c := by
  have hn : n < s.fxu.delivered.length := (List.getElem?_eq_some_iff.mp hr).1
  exact h.exists_accepted ((List.getElem?_append_left hn).trans hr)

/-- The `n`-th response owed answers the `n`-th of the commands not answered yet. -/
theorem inflight_answers {s : State} (h : s.InOrder) {n : Nat} {p : Pending s.w}
    (hp : s.fxu.inflight[n]? = some p) :
    ∃ c, s.fxu.accepted[s.fxu.delivered.length + n]? = some c ∧ p.rsp = outcome s.signed c :=
  h.exists_accepted (by simp [List.getElem?_append_right, hp])

/-- Every accepted command has exactly one response, delivered or owed. -/
theorem length_accepted {s : State} (h : s.InOrder) :
    s.fxu.accepted.length = s.fxu.delivered.length + s.fxu.inflight.length := by
  simpa using (congrArg List.length h).symm

end State.InOrder

/-- Settles O21: the order of responses holds along the run, and in an ordered state each response,
delivered or owed, is the outcome of the command at its own place. -/
theorem nthResponseAnswersNthCommand : Obligations.NthResponseAnswersNthCommand := by
  intro s t k hs hrun
  have ht : t.InOrder := runSteps_keeps (fun _ _ => State.InOrder.step) hs hrun
  exact ⟨fun _ _ => ht.delivered_answers, ht.length_accepted, fun _ _ => ht.inflight_answers⟩

end Sys2Proof.Machine
end

section
/-!
PROOFS. The encoding (spec/30_encoding.md): the opcode map read off bits 4:0 (R51, R53), the reserved codes
(R57, R174), and the ports and fields that an operation does not read (R55, R56).
-/

namespace Sys2Proof

/-! ## The fields of a command word -/

theorem cmdOp_eq_extractLsb' (cmd : BitVec 19) : cmdOp cmd = (cmd.extractLsb' 0 5).toNat := by
  simp [cmdOp]

theorem cmdF_eq_extractLsb' (cmd : BitVec 19) : cmdF cmd = (cmd.extractLsb' 5 7).toNat := by
  simp [cmdF, Nat.shiftRight_eq_div_pow]

theorem cmdFB_eq_extractLsb' (cmd : BitVec 19) : cmdFB cmd = (cmd.extractLsb' 12 7).toNat := by
  simp [cmdFB, Nat.shiftRight_eq_div_pow]

/-! ## The opcode map -/

/-- The codes that R57 reserves. A field of 5 bits holds none above 0x1F. -/
def reservedCode (op : Nat) : Prop := op = 0x0F ∨ 0x15 ≤ op

/-- The opcode map inverts the code and the two counts of an instruction. -/
theorem instrOfOp_code (i : Instr) : instrOfOp i.code i.f i.fb = .ok i := by
  cases i <;> rfl

theorem instrOfOp_of_reservedCode {op : Nat} (h : reservedCode op) (f fb : Nat) :
    instrOfOp op f fb = .error (.reservedOp op) := by
  unfold reservedCode at h
  unfold instrOfOp
  split
  case h_21 => rfl
  all_goals omega

theorem instrOfOp_of_not_reservedCode {op : Nat} (h : ¬reservedCode op) (f fb : Nat) :
    ∃ i, instrOfOp op f fb = .ok i ∧ i.code = op ∧ i.f = f ∧ i.fb = fb := by
  unfold reservedCode at h
  unfold instrOfOp
  split
  case h_21 => simp only [imp_false] at *; omega
  all_goals exact ⟨_, rfl, rfl, rfl, rfl⟩

/-- A word with a reserved code decodes to no operation, whatever its other fields (R57). -/
theorem decode_of_reservedCode {cmd : BitVec 19} (h : reservedCode (cmdOp cmd)) :
    decode cmd = .error (.reservedOp (cmdOp cmd)) :=
  instrOfOp_of_reservedCode h _ _

/-- A word with any other code decodes to the operation of that code, with the word's counts (R51). -/
theorem decode_of_not_reservedCode {cmd : BitVec 19} (h : ¬reservedCode (cmdOp cmd)) :
    ∃ i, decode cmd = .ok i ∧ i.code = cmdOp cmd ∧ i.f = cmdF cmd ∧ i.fb = cmdFB cmd :=
  instrOfOp_of_not_reservedCode h _ _

/-- The table of R53: each code that selects an operation, with its mnemonic. -/
def opcodeMap : List (Nat × String) :=
  [(0x00, "CLZ"), (0x01, "SSHR"), (0x02, "SSHL"), (0x03, "MULSHR"), (0x04, "FROMINT"), (0x05, "FROMFLT"),
    (0x06, "TOFLT"), (0x07, "CVT"), (0x08, "ADD"), (0x09, "SUB"), (0x0A, "MUL"), (0x0B, "DIV"),
    (0x0C, "NEG"), (0x0D, "MOD"), (0x0E, "ABS"), (0x10, "EQ"), (0x11, "LT"), (0x12, "LE"), (0x13, "GT"),
    (0x14, "GE")]

theorem opcodeMap_lookup_code (i : Instr) : opcodeMap.lookup i.code = some i.mnemonic := by
  cases i <;> rfl

theorem opcodeMap_lookup_of_reservedCode {op : Nat} (h : reservedCode op) :
    opcodeMap.lookup op = none := by
  unfold reservedCode at h
  simp [List.lookup_eq_none_iff, opcodeMap]
  omega

/-- Settles O3: a reserved code is not in the table and decodes to nothing; any other decodes to the
operation of that code, whose mnemonic the table gives. -/
theorem opcodeMapSelectsByOpAlone : Obligations.OpcodeMapSelectsByOpAlone := by
  intro cmd
  rw [← cmdOp_eq_extractLsb', ← cmdF_eq_extractLsb', ← cmdFB_eq_extractLsb', ← opcodeMap]
  by_cases h : reservedCode (cmdOp cmd)
  · rw [opcodeMap_lookup_of_reservedCode h]
    exact decode_of_reservedCode h
  · obtain ⟨i, hd, hc, hf, hfb⟩ := decode_of_not_reservedCode h
    rw [← hc, opcodeMap_lookup_code]
    exact ⟨i, hd, rfl, hf, hfb⟩

end Sys2Proof

namespace Sys2Proof.Machine

/-! ## Reserved codes -/

/-- No operation gives IllegalCommand: it is raised before any meaning is chosen (R174, R177). -/
theorem result_ne_illegalCommand {w : Nat} (signed : Bool) (i : Instr) (c : Command w) :
    result signed i c ≠ .fault .illegalCommand := by
  cases i <;> simp only [result]
  case fromflt f fb => cases fromFloat w signed f c.fa <;> simp
  case div f fb => cases divide signed fb c.a c.b <;> simp
  case mod f fb => cases modulo signed c.a (realign signed c.b fb f) <;> simp
  all_goals simp

/-- The outcome of a command is IllegalCommand exactly when its operation code is reserved (R174). -/
theorem outcome_eq_illegalCommand_iff {w : Nat} (signed : Bool) (c : Command w) :
    outcome signed c = .fault .illegalCommand ↔ reservedCode (cmdOp c.cmd) := by
  by_cases h : reservedCode (cmdOp c.cmd)
  · simp [outcome, decode_of_reservedCode h, h]
  · obtain ⟨i, hd, -⟩ := decode_of_not_reservedCode h
    simp [outcome, hd, h, result_ne_illegalCommand]

/-- Settles O9: the step answers an accepted command with its outcome, which is IllegalCommand exactly for
the reserved codes. -/
theorem reservedCodesAreIllegal : Obligations.ReservedCodesAreIllegal := by
  intro s hh ha op hop
  rw [← cmdOp_eq_extractLsb'] at hop
  subst hop
  have hiff := outcome_eq_illegalCommand_iff s.signed s.command
  have hstep := step_of_accepts hh ha
  exact ⟨fun h => by rwa [hiff.mpr h] at hstep, fun h => ⟨_, hstep, mt hiff.mp h⟩⟩

/-! ## Ports and fields that are not read -/

/-- The result is the same on every command that agrees on the ports the operation reads. The cases are
the rows of R55's table, grouped by the ports they mark as read. -/
theorem result_eq_of_agreeOn {w : Nat} (signed : Bool) {i : Instr} {c d : Command w}
    (h : agreeOn i c d) : result signed i c = result signed i d := by
  obtain ⟨ha, hb, hs, hfa⟩ := h
  cases i
  case clz | fromint | toflt | neg | abs => simp only [result, ha rfl]
  case sshr | sshl => simp only [result, ha rfl, hs rfl]
  case mulshr => simp only [result, ha rfl, hb rfl, hs rfl]
  case fromflt => simp only [result, hfa rfl]
  case cvt => simp only [result, hb rfl]
  case add | sub | mul | div | mod | eq | lt | le | gt | ge => simp only [result, ha rfl, hb rfl]

/-- The result is the same for every instruction of the operation that agrees on the fields it reads. The
cases are the rows of R55's table, grouped by the fields they mark as read. -/
theorem result_eq_of_sameRead {w : Nat} (signed : Bool) {i j : Instr} (h : sameRead i j)
    (c : Command w) : result signed i c = result signed j c := by
  obtain ⟨hcode, hf, hfb⟩ := h
  have hj : instrOfOp i.code j.f j.fb = .ok j := by rw [hcode, instrOfOp_code]
  cases i <;> rw [← Except.ok.inj hj]
  case clz | sshr | sshl | mulshr | neg | abs => rfl
  case fromint | fromflt | toflt => rw [← hf rfl]; rfl
  case mul | div => rw [← hfb rfl]; rfl
  case cvt | add | sub | mod | eq | lt | le | gt | ge => rw [← hf rfl, ← hfb rfl]; rfl

/-- Settles O23: both meanings answer with the result of R27's function, which depends on the operation,
the fields and the ports read only. -/
theorem unreadInputsAreIgnored : Obligations.UnreadInputsAreIgnored := by
  intro p f g i j hij hfg
  have hresult : result p.signed i f.inp.command = result p.signed j g.inp.command :=
    (result_eq_of_agreeOn p.signed hfg).trans (result_eq_of_sameRead p.signed hij g.inp.command)
  exact ⟨result p.signed i f.inp.command, exec_result i ⟨p, f⟩, hresult ▸ exec_result j ⟨p, g⟩⟩

end Sys2Proof.Machine
end

section
/-!
PROOFS. The bit primitives (spec/40_bit_primitives.md R77 to R80): the leading-zero count read off the
highest set bit, and each of the other three as the shared function that it answers with (R70, R71, R74).
-/

namespace Sys2Proof.Machine

/-! ## The leading-zero count -/

section Clz

variable {w : Nat} {x : BitVec w}

@[simp] theorem clz_zero : clz (0 : BitVec w) = w := by
  simp [clz]

theorem clz_of_ne_zero (h : x ≠ 0) : clz x = w - 1 - Nat.log2 x.toNat :=
  if_neg (BitVec.toNat_ne_iff_ne.mpr h)

/-- The highest set bit of a vector lies within its width. -/
theorem log2_toNat_lt (h : x ≠ 0) : Nat.log2 x.toNat < w :=
  (Nat.log2_lt (BitVec.toNat_ne_iff_ne.mpr h)).mpr x.isLt

theorem clz_lt (h : x ≠ 0) : clz x < w := by
  have hlog := log2_toNat_lt h
  rw [clz_of_ne_zero h]
  omega

/-- The index `W-1-n` that the count `n` names is that of the highest set bit (R72). -/
theorem width_sub_clz (h : x ≠ 0) : w - 1 - clz x = Nat.log2 x.toNat := by
  have hlog := log2_toNat_lt h
  rw [clz_of_ne_zero h]
  omega

theorem getLsbD_width_sub_clz (h : x ≠ 0) : x.getLsbD (w - 1 - clz x) = true := by
  rw [width_sub_clz h]
  exact Nat.testBit_log2 (BitVec.toNat_ne_iff_ne.mpr h)

theorem getLsbD_eq_false_of_width_sub_clz_lt (h : x ≠ 0) {k : Nat} (hk : w - 1 - clz x < k) :
    x.getLsbD k = false := by
  rw [width_sub_clz h, Nat.log2_lt (BitVec.toNat_ne_iff_ne.mpr h)] at hk
  exact Nat.testBit_eq_false_of_lt hk

end Clz

/-- Settles O27: the count that CLZ answers with is `W` for a zero operand, and otherwise names the highest
set bit. -/
theorem clzCountsLeadingZeros : Obligations.ClzCountsLeadingZeros := by
  intro f fb s
  refine ⟨clz s.a, exec_result (.clz f fb) s, ?_, fun hne => ⟨clz_lt hne, ?_, fun k hk => ?_⟩⟩
  · intro hzero
    rw [hzero, clz_zero]
  · exact getLsbD_width_sub_clz hne
  · exact getLsbD_eq_false_of_width_sub_clz_lt hne hk

/-! ## The shifts and the shifted product -/

/-- Settles O28: SSHR answers with the shared shifter, which is the library's shifts with the zero
contract. -/
theorem sshrShiftsRight : Obligations.SshrShiftsRight := by
  intro f fb s
  rw [exec_result, result, ssr_eq_nativeShift]

/-- Settles O29: a left shift is the shared shifter by the negated amount. -/
theorem sshlShiftsLeft : Obligations.SshlShiftsLeft := by
  intro f fb s
  rw [exec_result, result, ssl, ssr_eq_nativeShift]

/-- Settles O30: MULSHR answers with the shared product, and every legal width is even, so its four partial
products are those of two halves. -/
theorem mulshrSumsShiftedPartials : Obligations.MulshrSumsShiftedPartials := by
  intro f fb s
  have heven : 2 * (s.w / 2) = s.w := half_double s.params.width
  rw [exec_result, result, mulshr_eq heven]

end Sys2Proof.Machine
end

section
/-!
PROOFS. Construction and conversion (spec/41_construct_convert.md): the shared shifter (R90, R96), rounding
half away from zero on rational numbers (R91, R94), and the binary64 encoder (R93, R95).
-/

namespace Sys2Proof.Machine

/-! ## FROMINT and CVT -/

/-- A left shift by a count, zero contract included, is the library's own (R71). -/
theorem ssl_natCast_eq_shiftLeft {w : Nat} (signed : Bool) (x : BitVec w) (k : Nat) :
    ssl signed x (k : Int) = x <<< k := by
  rw [ssl, ssr_eq_nativeShift, nativeShift]
  split
  · next h => rw [BitVec.shiftLeft_eq_zero (by omega), BitVec.ofNat_eq_ofNat]
  · split
    · next h =>
      obtain rfl : k = 0 := by omega
      cases signed <;> simp
    · rw [neg_neg, Int.toNat_natCast]

/-- Settles O32: FROMINT answers with the shared left shift. -/
theorem fromintShiftsLeftByF : Obligations.FromintShiftsLeftByF := by
  intro f fb s
  rw [exec_result, result, ssl_natCast_eq_shiftLeft]

/-- Settles O36: CVT answers with the shared shifter by `FB - F`. -/
theorem cvtRealignsTheRightOperand : Obligations.CvtRealignsTheRightOperand := by
  intro f fb s
  rw [exec_result, result, realign, ssr_eq_nativeShift]

/-! ## Rounding half away from zero, and FROMFLT -/

/-- The magnitude half of R91 is the floor of the rational number plus one half. -/
theorem roundMag_eq_floor (m : Nat) (k : Int) : (roundMag m k : Int) = ⌊(m : ℚ) * 2 ^ k + 1 / 2⌋ := by
  unfold roundMag
  split
  · next h =>
    obtain ⟨n, rfl⟩ := Int.eq_ofNat_of_zero_le h
    have hsum : (m : ℚ) * 2 ^ (n : Int) + 1 / 2 = ((m * 2 ^ n : Nat) : ℚ) + 1 / 2 := by
      push_cast [zpow_natCast]; rfl
    rw [hsum, Int.floor_natCast_add, Int.toNat_natCast]
    norm_num
  · next h =>
    obtain ⟨n, rfl⟩ : ∃ n : Nat, k = -((n + 1 : Nat) : Int) := ⟨(-k).toNat - 1, by omega⟩
    have hsum : (m : ℚ) * 2 ^ (-((n + 1 : Nat) : Int)) + 1 / 2
        = ((m + 2 ^ n : Nat) : ℚ) / ((2 ^ (n + 1) : Nat) : ℚ) := by
      rw [zpow_neg, zpow_natCast]
      push_cast [pow_succ]
      field_simp
    rw [hsum, Rat.floor_natCast_div_natCast, neg_neg, Int.toNat_natCast, Nat.add_sub_cancel,
      Int.natCast_div]

/-- Rounding half away from zero treats the two signs alike (R91). -/
theorem rhaReal_neg (x : ℚ) : rhaReal (-x) = -rhaReal x := by
  unfold rhaReal
  rcases lt_trichotomy x 0 with h | rfl | h
  · simp [h.le, h.not_ge]
  · norm_num
  · simp [h.le, h.not_ge]

/-- The model's rounding of a sign, a magnitude and a power of two is that of R91 on rational numbers. -/
theorem rha_eq_rhaReal (neg : Bool) (m : Nat) (k : Int) :
    rha neg m k = rhaReal ((if neg then -1 else 1) * (m : ℚ) * 2 ^ k) := by
  have hmag : (roundMag m k : Int) = rhaReal ((m : ℚ) * 2 ^ k) := by
    rw [roundMag_eq_floor, rhaReal, if_pos (by positivity)]
  cases neg
  · simp [rha, hmag]
  · simp [rha, hmag, rhaReal_neg]

/-- The value of FROMFLT in terms of the real value of its operand (R94). -/
theorem fromFloat_eq_bind (w : Nat) (signed : Bool) (f : Nat) (x : BitVec 64) :
    fromFloat w signed f x = (floatReal x).bind fun d =>
      if minStored w signed ≤ rhaReal (d * 2 ^ f) ∧ rhaReal (d * 2 ^ f) ≤ maxStored w signed then
        some (trunc w (rhaReal (d * 2 ^ f)))
      else none := by
  unfold fromFloat floatReal
  cases floatDecode x with
  | infinity neg => rfl
  | nan => rfl
  | finite neg m e =>
    have hscale : rha neg m (e + (f : Int))
        = rhaReal ((if neg then -1 else 1) * (m : ℚ) * 2 ^ e * 2 ^ f) := by
      rw [rha_eq_rhaReal, zpow_add₀ two_ne_zero, zpow_natCast, mul_assoc, mul_assoc, mul_assoc]
    simp only [hscale, Option.bind_some]

theorem minStored_eq (w : Nat) (signed : Bool) :
    minStored w signed = if signed then -(2 ^ (w - 1) : Int) else 0 := by
  simp [minStored]

theorem maxStored_eq (w : Nat) (signed : Bool) :
    maxStored w signed = if signed then (2 ^ (w - 1) : Int) - 1 else (2 ^ w : Int) - 1 := by
  simp [maxStored]

/-- Settles O34: FROMFLT answers with the rounded product, or with ConvInvalid where there is no real value
or the rounded integer is not stored. -/
theorem fromfltRoundsHalfAway : Obligations.FromfltRoundsHalfAway := by
  intro f fb s
  rw [exec_result, result, fromFloat_eq_bind]
  cases floatReal s.command.fa with
  | none => rfl
  | some d =>
    simp only [Option.bind_some, ← minStored_eq, ← maxStored_eq]
    split <;> rfl

/-! ## The binary64 encoder, and TOFLT -/

/-- `n / d` rounded to an integer, ties to even (R93). -/
def roundDivEven (n d : Nat) : Nat :=
  if d < 2 * (n % d) ∨ (d = 2 * (n % d) ∧ n / d % 2 = 1) then n / d + 1 else n / d

theorem roundSignificand_of_le {n l : Nat} (h : l ≤ 52) : roundSignificand n l = n * 2 ^ (52 - l) :=
  if_pos h

theorem roundSignificand_of_lt {n l : Nat} (h : 52 < l) :
    roundSignificand n l = roundDivEven n (2 ^ (l - 52)) :=
  if_neg (by omega)

/-- The rounded quotient is the floor or its successor, on the side of the remainder, and even on a tie. -/
theorem roundDivEven_cases (n d : Nat) :
    (roundDivEven n d = n / d ∧ 2 * (n % d) ≤ d ∧ (2 * (n % d) = d → roundDivEven n d % 2 = 0)) ∨
    (roundDivEven n d = n / d + 1 ∧ d ≤ 2 * (n % d) ∧ (2 * (n % d) = d → roundDivEven n d % 2 = 0)) := by
  unfold roundDivEven
  split <;> omega

/-- The rounded quotient times the divisor misses the dividend by at most half the divisor. -/
theorem roundDivEven_mul_error (n : Nat) {d : Nat} (hd : 0 < d) :
    2 * |(roundDivEven n d : Int) * d - n| ≤ d
      ∧ (2 * |(roundDivEven n d : Int) * d - n| = d → roundDivEven n d % 2 = 0) := by
  have hdiv : ((n / d : Nat) : Int) * d + (n % d : Nat) = n := by exact_mod_cast Nat.div_add_mod' n d
  have hmod : n % d < d := Nat.mod_lt n hd
  obtain ⟨hq, hside, htie⟩ | ⟨hq, hside, htie⟩ := roundDivEven_cases n d
  · have herr : |(roundDivEven n d : Int) * d - n| = (n % d : Nat) := by
      rw [hq, ← hdiv, sub_add_cancel_left, abs_neg, Nat.abs_cast]
    omega
  · have herr : |(roundDivEven n d : Int) * d - n| = d - (n % d : Nat) := by
      rw [hq, ← hdiv, Nat.cast_succ, add_one_mul, add_sub_add_left_eq_sub, abs_of_pos (by omega)]
    omega

/-- The rounded quotient is the nearest integer, and an even one on a tie. -/
theorem roundDivEven_nearest (n : Nat) {d : Nat} (hd : 0 < d) :
    |(roundDivEven n d : ℚ) - n / d| ≤ 1 / 2
      ∧ (|(roundDivEven n d : ℚ) - n / d| = 1 / 2 → roundDivEven n d % 2 = 0) := by
  have hd' : (0 : ℚ) < d := by exact_mod_cast hd
  have herr : |(roundDivEven n d : ℚ) - n / d| = |(roundDivEven n d : ℚ) * d - n| / d := by
    rw [← abs_of_pos hd', ← abs_div, abs_of_pos hd', sub_div, mul_div_cancel_right₀ _ hd'.ne']
  obtain ⟨hle, htie⟩ := roundDivEven_mul_error n hd
  rw [herr, div_le_div_iff₀ hd' two_pos, div_eq_div_iff hd'.ne' two_ne_zero, one_mul, mul_comm]
  exact ⟨by exact_mod_cast hle, fun h => htie (by exact_mod_cast h)⟩

/-- The significand is the exact ratio `n / 2^(l-52)` rounded to the nearest integer, ties to even (R93). -/
theorem roundSignificand_nearest (n l : Nat) :
    |(roundSignificand n l : ℚ) - n / 2 ^ ((l : Int) - 52)| ≤ 1 / 2
      ∧ (|(roundSignificand n l : ℚ) - n / 2 ^ ((l : Int) - 52)| = 1 / 2 →
        roundSignificand n l % 2 = 0) := by
  rcases le_or_gt l 52 with h | h
  · have hexp : (l : Int) - 52 = -((52 - l : Nat) : Int) := by omega
    have hexact : (roundSignificand n l : ℚ) - n / 2 ^ ((l : Int) - 52) = 0 := by
      rw [roundSignificand_of_le h, hexp, zpow_neg, zpow_natCast]
      push_cast
      rw [div_inv_eq_mul, sub_self]
    rw [hexact]
    norm_num
  · have hexp : (2 : ℚ) ^ ((l : Int) - 52) = ((2 ^ (l - 52) : Nat) : ℚ) := by
      rw [show (l : Int) - 52 = ((l - 52 : Nat) : Int) by omega, zpow_natCast]
      push_cast
      rfl
    rw [roundSignificand_of_lt h, hexp]
    exact roundDivEven_nearest n (by positivity)

/-- The significand of a number whose highest set bit is bit `l` has 53 bits, or is `2^53` (R93). -/
theorem roundSignificand_mem_Icc {n l : Nat} (hlo : 2 ^ l ≤ n) (hhi : n < 2 ^ (l + 1)) :
    2 ^ 52 ≤ roundSignificand n l ∧ roundSignificand n l ≤ 2 ^ 53 := by
  rcases le_or_gt l 52 with h | h
  · have hlo' : 2 ^ 52 = 2 ^ l * 2 ^ (52 - l) := by rw [← pow_add]; congr 1; omega
    have hhi' : 2 ^ 53 = 2 ^ (l + 1) * 2 ^ (52 - l) := by rw [← pow_add]; congr 1; omega
    rw [roundSignificand_of_le h, hlo', hhi']
    exact ⟨Nat.mul_le_mul_right _ hlo, Nat.mul_le_mul_right _ hhi.le⟩
  · rw [roundSignificand_of_lt h]
    have hlo' : 2 ^ 52 ≤ n / 2 ^ (l - 52) := by
      rw [Nat.le_div_iff_mul_le (by positivity), ← pow_add]
      rwa [show 52 + (l - 52) = l by omega]
    have hhi' : n / 2 ^ (l - 52) < 2 ^ 53 := by
      rw [Nat.div_lt_iff_lt_mul (by positivity), ← pow_add]
      rwa [show 53 + (l - 52) = l + 1 by omega]
    obtain ⟨hq, -⟩ | ⟨hq, -⟩ := roundDivEven_cases n (2 ^ (l - 52)) <;> omega

/-- Decoding a packed normal number gives back its three fields (R92). -/
theorem floatDecode_floatPack (neg : Bool) {ex : Int} {fr : Nat} (hlo : 1 ≤ ex) (hhi : ex ≤ 2046)
    (hfr : fr < 2 ^ 52) : floatDecode (floatPack neg ex fr) = .finite neg (2 ^ 52 + fr) (ex - 1075) := by
  obtain ⟨n, rfl⟩ := Int.eq_ofNat_of_zero_le (by omega : 0 ≤ ex)
  have hnat : (floatPack neg n fr).toNat = neg.toNat * 2 ^ 63 + n * 2 ^ 52 + fr := by
    have hneg : (if neg then 2 ^ 63 else 0) = neg.toNat * 2 ^ 63 := by cases neg <;> rfl
    have hbit : neg.toNat < 2 := neg.toNat_lt
    rw [floatPack, hneg, BitVec.toNat_ofNat, Int.toNat_natCast, Nat.mod_eq_of_lt (by omega)]
  have hsign : floatSign (floatPack neg n fr) = neg := by
    rw [floatSign, BitVec.msb_eq_decide, hnat]
    cases neg <;> simp <;> omega
  have hexp : floatExp (floatPack neg n fr) = n := by
    rw [floatExp, hnat]
    omega
  have hfrac : floatFrac (floatPack neg n fr) = fr := by
    rw [floatFrac, hnat]
    omega
  rw [floatDecode, hsign, hexp, hfrac, if_neg (by omega), if_neg (by omega)]

/-- The real value of a packed normal number (R92). -/
theorem floatReal_floatPack (neg : Bool) {ex : Int} {fr : Nat} (hlo : 1 ≤ ex) (hhi : ex ≤ 2046)
    (hfr : fr < 2 ^ 52) : floatReal (floatPack neg ex fr)
      = some ((if neg then -1 else 1) * ((2 ^ 52 + fr : Nat) : ℚ) * 2 ^ (ex - 1075)) := by
  rw [floatReal, floatDecode_floatPack neg hlo hhi hfr]

@[simp] theorem floatEncode_zero (f : Nat) : floatEncode 0 f = 0 :=
  if_pos rfl

/-- The encoder represents the rounded significand, carried or not, whenever the exponent is that of a
normal number (R93). -/
theorem floatReal_floatEncode {n : Int} {f l : Nat} (hn : n ≠ 0) (hl : l = Nat.log2 n.natAbs)
    (hlo : -1022 ≤ (l : Int) - f) (hhi : (l : Int) - f ≤ 1022) :
    floatReal (floatEncode n f) = some ((if n < 0 then -1 else 1) * (roundSignificand n.natAbs l : ℚ)
      * 2 ^ ((l : Int) - f - 52)) := by
  have habs : n.natAbs ≠ 0 := Int.natAbs_ne_zero.mpr hn
  obtain ⟨hq0, hq1⟩ : 2 ^ 52 ≤ roundSignificand n.natAbs l ∧ roundSignificand n.natAbs l ≤ 2 ^ 53 :=
    roundSignificand_mem_Icc (hl ▸ Nat.log2_self_le habs) (hl ▸ Nat.lt_log2_self)
  rw [floatEncode, if_neg hn, ← hl]
  dsimp only
  split
  · next hcarry =>
    rw [floatReal_floatPack _ (by omega) (by omega) (by norm_num), hcarry,
      show (l : Int) - f + 1 + 1023 - 1075 = ((l : Int) - f - 52) + 1 by ring, zpow_add_one₀ two_ne_zero]
    simp only [decide_eq_true_eq, Option.some_inj]
    push_cast
    ring
  · next hcarry =>
    rw [floatReal_floatPack _ (by omega) (by omega) (by omega), Nat.add_sub_of_le hq0,
      show (l : Int) - f + 1023 - 1075 = (l : Int) - f - 52 by ring]
    simp only [decide_eq_true_eq]

theorem width_bits_le (wd : Width) : wd.bits ≤ 64 := by
  cases wd <;> decide

/-- A magnitude fits the unsigned range of its width, that of the most negative value too (R74). -/
theorem magNat_lt {w : Nat} (signed : Bool) (x : BitVec w) : magNat signed x < 2 ^ w :=
  mag_toNat signed x ▸ BitVec.isLt _

theorem two_zpow_natCast_sub (l f : Nat) : (2 : ℚ) ^ ((l : Int) - f) = 2 ^ l / 2 ^ f := by
  rw [zpow_sub₀ two_ne_zero, zpow_natCast, zpow_natCast]

theorem abs_realOf {w : Nat} (signed : Bool) (f : Nat) (v : BitVec w) :
    |realOf signed f v| = (magNat signed v : ℚ) / 2 ^ f := by
  rw [realOf, magNat, abs_div, abs_of_pos (by positivity : (0 : ℚ) < 2 ^ f), Nat.cast_natAbs, Int.cast_abs]

theorem realOf_eq_zero_iff {w : Nat} (signed : Bool) (f : Nat) (v : BitVec w) :
    realOf signed f v = 0 ↔ val signed v = 0 := by
  simp [realOf]

theorem realOf_neg_iff {w : Nat} (signed : Bool) (f : Nat) (v : BitVec w) :
    realOf signed f v < 0 ↔ val signed v < 0 := by
  rw [realOf, div_lt_iff₀ (by positivity), zero_mul, Int.cast_lt_zero]

/-- Settles O35: the exponent is that of the highest set bit of the magnitude, less `F`, and the number is
the rounded significand. -/
theorem tofltRoundsToNearestEven : Obligations.TofltRoundsToNearestEven := by
  intro f fb s x hf hx
  subst hx
  refine ⟨floatEncode (val s.signed s.a) f, exec_result (.toflt f fb) s, fun h0 => ?_, fun h0 => ?_⟩
  · rw [(realOf_eq_zero_iff ..).mp h0, floatEncode_zero]
  · have hval : val s.signed s.a ≠ 0 := mt (realOf_eq_zero_iff ..).mpr h0
    have hmag : magNat s.signed s.a ≠ 0 := Int.natAbs_ne_zero.mpr hval
    obtain ⟨l, hl⟩ : ∃ l, l = Nat.log2 (magNat s.signed s.a) := ⟨_, rfl⟩
    have hlw : l < s.w := hl ▸ (Nat.log2_lt hmag).mpr (magNat_lt s.signed s.a)
    have hw : s.w ≤ 64 := width_bits_le s.params.width
    have hlo : 2 ^ l ≤ magNat s.signed s.a := hl ▸ Nat.log2_self_le hmag
    have hhi : magNat s.signed s.a < 2 ^ (l + 1) := hl ▸ Nat.lt_log2_self
    have hratio : |realOf s.signed f s.a| / 2 ^ ((l : Int) - f - 52)
        = (magNat s.signed s.a : ℚ) / 2 ^ ((l : Int) - 52) := by
      rw [abs_realOf, sub_right_comm, zpow_sub₀ two_ne_zero, zpow_natCast,
        div_div_div_cancel_right₀ (by positivity)]
    have hnearest := roundSignificand_nearest (magNat s.signed s.a) l
    refine ⟨(l : Int) - f, roundSignificand (magNat s.signed s.a) l, ?_, ?_, ?_, ?_, ?_⟩
    · rw [abs_realOf, two_zpow_natCast_sub]
      gcongr
      exact_mod_cast hlo
    · rw [abs_realOf, sub_add_eq_add_sub, ← Nat.cast_succ, two_zpow_natCast_sub]
      gcongr
      exact_mod_cast hhi
    · rw [hratio]
      exact hnearest.1
    · rw [hratio]
      exact hnearest.2
    · simp only [realOf_neg_iff]
      exact floatReal_floatEncode hval hl (by omega) (by omega)

end Sys2Proof.Machine
end

section
/-!
PROOFS. Arithmetic (spec/42_arithmetic.md): the wrapped sums and differences (R110, R111, R113), the product
by a power of two (R112, R124), the truncating remainder (R114) and the absolute value (R115).
-/

namespace Sys2Proof.Machine

/-! ## Wrapped sums and differences: ADD, SUB, NEG -/

theorem trunc_add_toNat {w : Nat} (x y : BitVec w) :
    trunc w ((x.toNat : Int) + (y.toNat : Int)) = x + y := by
  simp [trunc, BitVec.ofInt_add]

theorem trunc_sub_toNat {w : Nat} (x y : BitVec w) :
    trunc w ((x.toNat : Int) - (y.toNat : Int)) = x - y := by
  simp [trunc, sub_eq_add_neg, BitVec.ofInt_add, BitVec.ofInt_neg]

/-- Reducing the value of a vector to the vector's own width gives it back, for either signedness. -/
@[simp] theorem trunc_val {w : Nat} (signed : Bool) (x : BitVec w) : trunc w (val signed x) = x := by
  cases signed <;> simp [trunc, val]

/-- Settles O39: ADD wraps the sum of the unsigned values, which is the library's sum. -/
theorem addWrapsAfterRealigning : Obligations.AddWrapsAfterRealigning := by
  intro f fb s
  rw [exec_result, result, trunc_add_toNat, realign, ssr_eq_nativeShift]

/-- Settles O40: SUB wraps the difference of the unsigned values, which is the library's difference. -/
theorem subWrapsAfterRealigning : Obligations.SubWrapsAfterRealigning := by
  intro f fb s
  rw [exec_result, result, trunc_sub_toNat, realign, ssr_eq_nativeShift]

/-- Settles O43: NEG answers with `neg_W`, which is the library's negation. -/
theorem negIsTwosComplement : Obligations.NegIsTwosComplement := by
  intro f fb s
  rw [exec_result, result, negW_eq_neg]

/-! ## ABS -/

theorem mag_eq {w : Nat} (signed : Bool) (x : BitVec w) :
    mag signed x = if signed = true ∧ x.toInt < 0 then -x else x := by
  cases signed <;> simp [mag, isNeg, BitVec.msb_eq_toInt]

/-- Settles O45: ABS answers with the magnitude vector, which negates an operand that is read as signed and
is negative, and no other. -/
theorem absOfSignedAndUnsigned : Obligations.AbsOfSignedAndUnsigned := by
  intro f fb s
  rw [exec_result, result, mag_eq]

/-! ## MOD -/

/-- The spec's quotient of signs and magnitudes is the library's truncating division. -/
theorem truncQuotient_eq_tdiv (x m : Int) : truncQuotient x m = x.tdiv m := by
  rw [← Int.sign_mul_natAbs (x.tdiv m), Int.sign_tdiv, Int.natAbs_tdiv, truncQuotient]
  split
  · next hlt => simp [Nat.div_eq_of_lt hlt]
  · rfl

/-- The remainder of truncating division, wrapped, is the library's for either signedness (R114). -/
theorem trunc_tmod_val {w : Nat} (signed : Bool) (x m : BitVec w) :
    trunc w ((val signed x).tmod (val signed m)) = if signed then x.srem m else x.umod m := by
  cases signed with
  | true =>
    calc trunc w (x.toInt.tmod m.toInt) = trunc w (x.srem m).toInt := by rw [BitVec.toInt_srem]
      _ = x.srem m := trunc_val true _
  | false =>
    calc trunc w ((x.toNat : Int).tmod m.toNat) = trunc w ((x % m).toNat : Int) := by
          rw [BitVec.toNat_umod, Int.ofNat_tmod]
      _ = x % m := trunc_val false _

theorem modulo_zero {w : Nat} (signed : Bool) (x : BitVec w) : modulo signed x 0 = none := by
  simp [modulo]

theorem modulo_of_ne_zero {w : Nat} (signed : Bool) (x : BitVec w) {m : BitVec w} (h : m ≠ 0) :
    modulo signed x m = some (if signed then x.srem m else x.umod m) := by
  have hm : m.toNat ≠ 0 := BitVec.toNat_ne_iff_ne.mpr h
  rw [modulo, if_neg hm, truncQuotient_eq_tdiv, mul_comm, ← Int.tmod_def, trunc_tmod_val]

/-- Settles O44: MOD raises the fault for a zero divisor, and otherwise answers with the truncating
remainder, which is the library's. -/
theorem modIsTruncatedRemainder : Obligations.ModIsTruncatedRemainder := by
  intro f fb s m hm
  rw [exec_result, result, realign, ssr_eq_nativeShift, ← hm]
  refine ⟨fun h => ?_, fun h => ?_⟩
  · rw [h, modulo_zero]
    rfl
  · rw [modulo_of_ne_zero _ _ h]
    rfl

/-! ## MUL, and its product by a power of two -/

/-- Settles O41: MUL answers with the shared product shifted by `FB`, and every legal width is even, so its
four partial products are those of two halves. -/
theorem mulShiftsByFB : Obligations.MulShiftsByFB := by
  intro f fb s
  have heven : 2 * (s.w / 2) = s.w := half_double s.params.width
  rw [exec_result, result, mulshr_eq heven]

@[simp] theorem shiftedTerm_zero_left (k : Int) : shiftedTerm 0 k = 0 := by
  simp [shiftedTerm]

@[simp] theorem shiftedTerm_zero_right (p : Nat) : shiftedTerm p 0 = p := by
  simp [shiftedTerm]

/-- A shift amount written as a difference: multiply first, then take the floor of one division. -/
theorem shiftedTerm_sub (p m n : Nat) : shiftedTerm p ((m : Int) - n) = p * 2 ^ n / 2 ^ m := by
  unfold shiftedTerm
  split
  · next h =>
    obtain ⟨j, rfl⟩ : ∃ j, m = j + n := ⟨m - n, by omega⟩
    rw [pow_add, Nat.mul_div_mul_right _ _ (by positivity)]
    congr; omega
  · next h =>
    obtain ⟨j, rfl⟩ : ∃ j, n = j + m := ⟨n - m, by omega⟩
    rw [pow_add, ← mul_assoc, Nat.mul_div_cancel _ (by positivity)]
    congr; omega

theorem shiftedTerm_natCast (p n : Nat) : shiftedTerm p n = p / 2 ^ n := by
  simpa using shiftedTerm_sub p n 0

theorem shiftedTerm_neg_natCast (p n : Nat) : shiftedTerm p (-n) = p * 2 ^ n := by
  simpa using shiftedTerm_sub p 0 n

/-- A factor that is a power of two only moves the shift amount. -/
theorem shiftedTerm_mul_two_pow (p n : Nat) (k : Int) :
    shiftedTerm (p * 2 ^ n) k = shiftedTerm p (k - n) := by
  rw [← Int.toNat_sub_toNat_neg k, sub_sub, ← Int.natCast_add, shiftedTerm_sub, shiftedTerm_sub, mul_assoc,
    ← pow_add, add_comm n]

/-- A number is its high part and its low part, shifted each on its own: nothing is lost between them. -/
theorem shiftedTerm_split (x n : Nat) (k : Int) :
    shiftedTerm (x / 2 ^ n) (k - n) + shiftedTerm (x % 2 ^ n) k = shiftedTerm x k := by
  rcases le_total (n : Int) k with h | h
  · obtain ⟨c, rfl⟩ : ∃ c : Nat, k = ((n + c : Nat) : Int) := ⟨(k - n).toNat, by omega⟩
    have hlow : x % 2 ^ n < 2 ^ (n + c) :=
      (Nat.mod_lt x (by positivity)).trans_le (Nat.pow_le_pow_right two_pos (Nat.le_add_right n c))
    rw [show ((n + c : Nat) : Int) - n = c by omega, shiftedTerm_natCast, shiftedTerm_natCast,
      shiftedTerm_natCast, Nat.div_eq_of_lt hlow, add_zero, pow_add, Nat.div_div_eq_div_mul]
  · obtain ⟨j, rfl⟩ : ∃ j : Nat, k = (n : Int) - j := ⟨(n - k).toNat, by omega⟩
    have hx : x * 2 ^ j = 2 ^ n * (x / 2 ^ n * 2 ^ j) + x % 2 ^ n * 2 ^ j := by
      rw [← mul_assoc, ← add_mul, Nat.div_add_mod]
    rw [sub_sub_cancel_left, shiftedTerm_neg_natCast, shiftedTerm_sub, shiftedTerm_sub, hx,
      Nat.mul_add_div (by positivity)]

/-- One operand a power of two: the four partial products add up to the whole shifted product. -/
theorem partialSum_two_pow {w : Nat} (heven : 2 * (w / 2) = w) (x n : Nat) (k : Int) :
    partialSum w x (2 ^ n) k = shiftedTerm x (k - n) := by
  rw [← shiftedTerm_split x (w / 2), partialSum]
  rcases lt_or_ge n (w / 2) with h | h
  · have hlt : 2 ^ n < 2 ^ (w / 2) := Nat.pow_lt_pow_right one_lt_two h
    rw [Nat.div_eq_of_lt hlt, Nat.mod_eq_of_lt hlt, shiftedTerm_mul_two_pow, shiftedTerm_mul_two_pow]
    simp [sub_right_comm]
  · obtain ⟨j, rfl⟩ := Nat.exists_eq_add_of_le h
    rw [pow_add, Nat.mul_mod_right, Nat.mul_div_cancel_left _ (by positivity), shiftedTerm_mul_two_pow,
      shiftedTerm_mul_two_pow]
    simp only [mul_zero, shiftedTerm_zero_left, add_zero]
    congr 2 <;> omega

/-- The magnitude of an operand takes its sign back from a product with an operand that is not negative. -/
theorem withSign_magNat {w : Nat} {signed : Bool} (a : BitVec w) {b : BitVec w} (hb : 0 ≤ val signed b) :
    withSign signed a b (magNat signed a) = a := by
  have hmag : (mag signed a).toNat = magNat signed a % 2 ^ w := by
    rw [mag_toNat, Nat.mod_eq_of_lt (magNat_lt signed a)]
  rw [← applySign_eq signed a b (mag signed a) _ hmag, applySign, mag, isNeg_iff signed b,
    decide_eq_false hb.not_gt]
  cases isNeg signed a <;> simp

/-- A power of two that is representable is stored as it is (R7, R124). -/
theorem val_ofNat_two_pow {w : Nat} {signed : Bool} {f : Nat}
    (h : if signed then f + 2 ≤ w else f + 1 ≤ w) :
    val signed (BitVec.ofNat w (2 ^ f)) = ((2 ^ f : Nat) : Int) := by
  have hlt : f < w := by cases signed <;> simp at h <;> omega
  have hnat : (BitVec.ofNat w (2 ^ f)).toNat = 2 ^ f := by
    rw [BitVec.toNat_ofNat, Nat.mod_eq_of_lt (Nat.pow_lt_pow_right one_lt_two hlt)]
  cases signed with
  | false => rw [val, if_neg (by simp), hnat]
  | true =>
    have hle : f + 2 ≤ w := by simpa using h
    have hsmall : 2 * 2 ^ f < 2 ^ w := by
      rw [← pow_succ']
      exact Nat.pow_lt_pow_right one_lt_two hle
    rw [val, if_pos rfl, BitVec.toInt_eq_toNat_of_lt (by rwa [hnat]), hnat]

/-! ## The identities of R124 -/

/-- Realigning to the same fractional-bit count shifts by nothing. -/
@[simp] theorem nativeShift_zero {w : Nat} (signed : Bool) (x : BitVec w) : nativeShift signed x 0 = x := by
  unfold nativeShift
  split
  · next h =>
    obtain rfl : w = 0 := by omega
    exact Subsingleton.elim _ _
  · cases signed <;> simp

/-- Settles O46: at one count nothing is realigned, so the sum and the difference are the library's, and the
product by the stored `2^F` is the magnitude unshifted, with its own sign. -/
theorem identityLaws : Obligations.IdentityLaws := by
  intro f s
  refine ⟨fun hb => ?_, fun hb => ?_, fun hb hf => ?_⟩
  · rw [addWrapsAfterRealigning f f s, sub_self, nativeShift_zero, hb, add_zero]
  · rw [subWrapsAfterRealigning f f s, sub_self, nativeShift_zero, hb, sub_self]
  · have hval : val s.signed s.b = ((2 ^ f : Nat) : Int) := by rw [hb, val_ofNat_two_pow hf]
    have hmag : magNat s.signed s.b = 2 ^ f := by rw [magNat, hval, Int.natAbs_natCast]
    have heven : 2 * (s.w / 2) = s.w := half_double s.params.width
    rw [mulShiftsByFB f f s, hmag, partialSum_two_pow heven, sub_self, shiftedTerm_zero_right,
      withSign_magNat _ (hval ▸ Int.natCast_nonneg _)]

end Sys2Proof.Machine
end

section
/-!
PROOFS. Division (spec/43_divide.md): each of R130's five steps computed on plain numbers.
-/

namespace Sys2Proof.Machine

section QuotientOnNumbers

variable {w : Nat}

/-! ## Step 1: the normalised divisor -/

/-- Shifting a number up to its highest place loses no bit. -/
theorem mul_two_pow_lt_of_log2 {n : Nat} (h0 : n ≠ 0) (hn : n < 2 ^ w) :
    n * 2 ^ (w - 1 - Nat.log2 n) < 2 ^ w := by
  have hlog : Nat.log2 n < w := (Nat.log2_lt h0).mpr hn
  calc n * 2 ^ (w - 1 - Nat.log2 n)
      < 2 ^ (Nat.log2 n + 1) * 2 ^ (w - 1 - Nat.log2 n) := by gcongr; exact Nat.lt_log2_self
    _ = 2 ^ w := by rw [← pow_add]; congr 1; omega

theorem normalised_toNat {mb : BitVec w} (h : mb ≠ 0) :
    (normalised mb).toNat = mb.toNat * 2 ^ (w - 1 - Nat.log2 mb.toNat) := by
  have hfits := mul_two_pow_lt_of_log2 (BitVec.toNat_ne_iff_ne.mpr h) mb.isLt
  rw [normalised, ssl_natCast_eq_shiftLeft, clz_of_ne_zero h, BitVec.toNat_shiftLeft, Nat.shiftLeft_eq,
    Nat.mod_eq_of_lt hfits]

/-! ## Step 2: the seed -/

theorem msbW_toNat (hw : 0 < w) : (msbW w).toNat = 2 ^ (w - 1) := by
  rw [msbW, BitVec.toNat_ofNat, Nat.mod_eq_of_lt (Nat.pow_lt_pow_right one_lt_two (by omega))]

/-- The two vectors of the estimate as numbers, the state of R130's loop on numbers. -/
def Recip.toNats (p : Recip w) : Nat × Nat := (p.r.toNat, p.e.toNat)

theorem seed_toNats (hw : 0 < w) (d : BitVec w) :
    (seed d).toNats = (2 ^ (w - 1), (2 ^ w - d.toNat) * 2 % 2 ^ w) := by
  have hshift : ssl false (negW d) 1 = (-d) <<< 1 := by
    rw [negW_eq_neg]
    exact ssl_natCast_eq_shiftLeft false (-d) 1
  rw [seed, Recip.toNats, msbW_toNat hw, hshift, BitVec.toNat_shiftLeft, BitVec.toNat_neg, Nat.shiftLeft_eq,
    pow_one, Nat.mod_mul_mod]

/-! ## Step 3: the rounds -/

theorem refineOnce_toNats (heven : 2 * (w / 2) = w) (p : Recip w) :
    (refineOnce p).toNats
      = ((p.r.toNat + partialSum w p.r.toNat p.e.toNat ((w : Int) + 1) % 2 ^ w) % 2 ^ w,
        partialSum w p.e.toNat p.e.toNat ((w : Int) + 1) % 2 ^ w) := by
  rw [refineOnce, Recip.toNats, BitVec.toNat_ofNat, umulshr_toNat heven, umulshr_toNat heven]

theorem refine_toNats (heven : 2 * (w / 2) = w) (n : Nat) (p : Recip w) :
    (refine n p).toNats = roundsNat w n p.toNats := by
  induction n generalizing p with
  | zero => rfl
  | succ n ih => rw [refine, ih, refineOnce_toNats heven, Recip.toNats, roundsNat]

/-! ## Step 4: the final shift -/

theorem divShift_eq (hw : 0 < w) {mb : BitVec w} (h : mb ≠ 0) (fb : Nat) :
    divShift mb fb = 2 * (w : Int) - 1 - (fb : Int) - ((w - 1 - Nat.log2 mb.toNat : Nat) : Int)
      - (if mb.toNat * 2 ^ (w - 1 - Nat.log2 mb.toNat) = 2 ^ (w - 1) then 1 else 0) := by
  rw [divShift, clz_of_ne_zero h, ← normalised_toNat h, ← msbW_toNat hw]
  simp only [BitVec.toNat_inj]

/-- The model's quotient magnitude is that of the four steps on the numbers the vectors hold. -/
theorem quotientMag_toNat (heven : 2 * (w / 2) = w) (hw : 0 < w) (ma : BitVec w) {mb : BitVec w}
    (h : mb ≠ 0) (fb : Nat) : (quotientMag ma mb fb).toNat = quotientNat w fb ma.toNat mb.toNat := by
  have hr : (refine (w - 1) (seed (normalised mb))).r.toNat
      = (roundsNat w (w - 1) (seed (normalised mb)).toNats).1 := by
    rw [← refine_toNats heven, Recip.toNats]
  rw [quotientMag, umulshr_toNat heven, Config.rounds, hr, seed_toNats hw, normalised_toNat h,
    divShift_eq hw h, quotientNat]

theorem quotientNat_lt (fb x y : Nat) : quotientNat w fb x y < 2 ^ w :=
  Nat.mod_lt _ (by positivity)

/-! ## Step 5: the fault and the sign -/

/-- A magnitude vanishes for the zero vector only, so DIV may test it in place of the divisor (R172). -/
theorem mag_toNat_eq_zero_iff (signed : Bool) (x : BitVec w) : (mag signed x).toNat = 0 ↔ x = 0 := by
  rw [← BitVec.toNat_zero (w := w), BitVec.toNat_inj, mag_eq]
  split <;> simp

theorem divide_eq_none_iff (signed : Bool) (fb : Nat) (a b : BitVec w) :
    divide signed fb a b = none ↔ b = 0 := by
  simp [divide, mag_toNat_eq_zero_iff]

theorem divide_of_ne_zero (heven : 2 * (w / 2) = w) (hw : 0 < w) (signed : Bool) (fb : Nat) (a : BitVec w)
    {b : BitVec w} (h : b ≠ 0) : divide signed fb a b
      = some (withSign signed a b (quotientNat w fb (magNat signed a) (magNat signed b))) := by
  have hmag : (mag signed b).toNat ≠ 0 := mt (mag_toNat_eq_zero_iff signed b).mp h
  have hquot : (quotientMag (mag signed a) (mag signed b) fb).toNat
      = quotientNat w fb (magNat signed a) (magNat signed b) % 2 ^ w := by
    rw [quotientMag_toNat heven hw _ (BitVec.toNat_ne_iff_ne.mp hmag), mag_toNat, mag_toNat,
      Nat.mod_eq_of_lt (quotientNat_lt ..)]
  rw [divide, if_neg hmag, applySign_eq _ _ _ _ _ hquot]

end QuotientOnNumbers

theorem width_bits_pos (wd : Width) : 0 < wd.bits := by
  cases wd <;> decide

/-- Settles O49: DIV raises the fault for a zero divisor, and otherwise answers with the steps' quotient;
every legal width is even, so each product of the steps is that of two halves. -/
theorem divFollowsTheFiveSteps : Obligations.DivFollowsTheFiveSteps := by
  intro f fb s
  have heven : 2 * (s.w / 2) = s.w := half_double s.params.width
  have hw : 0 < s.w := width_bits_pos s.params.width
  rw [exec_result, result]
  refine ⟨fun h => ?_, fun h => ?_⟩
  · rw [(divide_eq_none_iff ..).mpr h]
    rfl
  · rw [divide_of_ne_zero heven hw _ _ _ h]
    rfl

end Sys2Proof.Machine
end

section
/-!
PROOFS. Comparison (spec/44_compare.md): the relations of R151 to R156 as propositions about the library's
shifts, and the answers on `y`.
-/

namespace Sys2Proof.Machine

variable {w : Nat}

/-- A comparison answers 1 or 0 by the proposition that its relation decides (R150). -/
theorem truth_of_iff {p : Bool} {P : Prop} [Decidable P] (h : p = true ↔ P) :
    truth w p = if P then 1 else 0 := by
  simp only [truth, h, BitVec.ofNat_eq_ofNat]

/-! ## EQ -/

theorem equalRel_iff (signed : Bool) (f fb : Nat) (a b : BitVec w) :
    equalRel signed f fb a b = true
      ↔ nativeShift signed b ((fb : Int) - f) = a ∧ nativeShift signed a ((f : Int) - fb) = b := by
  simp [equalRel, ssr_eq_nativeShift]

/-- Settles O53: EQ's relation is stated with the shared shifter, which is the library's shifts. -/
theorem eqIsMutualReproduction : Obligations.EqIsMutualReproduction := by
  intro f fb s
  rw [exec_result, result, truth_of_iff (equalRel_iff ..)]

/-! ## The two parts of R152 -/

theorem integral_eq_nativeIntegral (signed : Bool) (f : Nat) (x : BitVec w) :
    integral signed f x = nativeIntegral signed f x :=
  ssr_eq_nativeShift signed x f

/-- What the integral part leaves of an operand (R152): the wrapped difference is the library's. -/
theorem remainder_eq_sub (signed : Bool) (f : Nat) (x : BitVec w) :
    remainder signed f x = x - nativeShift signed (nativeIntegral signed f x) (-(f : Int)) := by
  rw [remainder, trunc_sub_toNat, ssl, ssr_eq_nativeShift, integral_eq_nativeIntegral]

theorem fraction_eq_nativeFraction (signed : Bool) (f : Nat) (x : BitVec w) :
    fraction signed f x = nativeFraction signed f x := by
  rw [fraction, remainder_eq_sub, ssl, neg_sub, ssr_eq_nativeShift, nativeFraction]

/-! ## The orderings -/

/-- A comparison in two stages, as R153 writes it: where the first stage `R` holds only off a tie, it and the
second stage `T` on a tie are the two ways to hold. -/
theorem twoStage_iff {x y : Int} {R T : Prop} [Decidable R] [Decidable T] (hR : R → x ≠ y) :
    (if x ≠ y then decide R else decide T) = true ↔ R ∨ (x = y ∧ T) := by
  by_cases htie : x = y
  · have hnot : ¬ R := fun h => hR h htie
    simp [htie, hnot]
  · simp [htie]

section Orderings

variable (signed : Bool) (f fb : Nat) (a b : BitVec w)

theorem lessRel_iff : lessRel signed f fb a b = true
    ↔ val signed (nativeIntegral signed f a) < val signed (nativeIntegral signed fb b)
      ∨ (val signed (nativeIntegral signed f a) = val signed (nativeIntegral signed fb b)
        ∧ (nativeFraction signed f a).toNat < (nativeFraction signed fb b).toNat) := by
  simp only [lessRel, integral_eq_nativeIntegral, fraction_eq_nativeFraction]
  exact twoStage_iff ne_of_lt

theorem lessEqRel_iff : lessEqRel signed f fb a b = true
    ↔ val signed (nativeIntegral signed f a) < val signed (nativeIntegral signed fb b)
      ∨ (val signed (nativeIntegral signed f a) = val signed (nativeIntegral signed fb b)
        ∧ (nativeFraction signed f a).toNat ≤ (nativeFraction signed fb b).toNat) := by
  simp only [lessEqRel, integral_eq_nativeIntegral, fraction_eq_nativeFraction]
  exact twoStage_iff ne_of_lt

theorem greaterRel_iff : greaterRel signed f fb a b = true
    ↔ val signed (nativeIntegral signed fb b) < val signed (nativeIntegral signed f a)
      ∨ (val signed (nativeIntegral signed f a) = val signed (nativeIntegral signed fb b)
        ∧ (nativeFraction signed fb b).toNat < (nativeFraction signed f a).toNat) := by
  simp only [greaterRel, integral_eq_nativeIntegral, fraction_eq_nativeFraction]
  exact twoStage_iff ne_of_gt

theorem greaterEqRel_iff : greaterEqRel signed f fb a b = true
    ↔ val signed (nativeIntegral signed fb b) < val signed (nativeIntegral signed f a)
      ∨ (val signed (nativeIntegral signed f a) = val signed (nativeIntegral signed fb b)
        ∧ (nativeFraction signed fb b).toNat ≤ (nativeFraction signed f a).toNat) := by
  simp only [greaterEqRel, integral_eq_nativeIntegral, fraction_eq_nativeFraction]
  exact twoStage_iff ne_of_gt

end Orderings

/-- Settles O54: each ordering answers with its relation, which holds by the integral parts or, on their tie,
by the aligned remainders. -/
theorem orderingsCompareInTwoStages : Obligations.OrderingsCompareInTwoStages := by
  rintro f fb s x y u v rfl rfl rfl rfl
  refine ⟨?_, ?_, ?_, ?_⟩
  · rw [exec_result, result, truth_of_iff (lessRel_iff ..)]
  · rw [exec_result, result, truth_of_iff (lessEqRel_iff ..)]
  · rw [exec_result, result, truth_of_iff (greaterRel_iff ..)]
  · rw [exec_result, result, truth_of_iff (greaterEqRel_iff ..)]

end Sys2Proof.Machine
end

section
/-!
PROOFS. Exceptions (spec/60_exceptions.md): when DIV and MOD raise DivisionByZero.
-/

namespace Sys2Proof.Machine

/-- The zero contract (R70) for the library's shifts. -/
theorem nativeShift_of_large {w : Nat} (signed : Bool) (x : BitVec w) {k : Int} (h : w ≤ k.natAbs) :
    nativeShift signed x k = 0 :=
  if_pos h

/-- An operation that raises a fault under a condition and answers on `y` otherwise raises it exactly under
that condition: the two responses leave different states. -/
theorem exec_eq_fault_iff {i : Instr} {s : State} {c : FaultCode} {P : Prop} {v : BitVec s.w}
    (hfault : P → exec i s = .next (s.respond (.fault c)))
    (hvalue : ¬P → exec i s = .next (s.respond (.y v))) :
    exec i s = .next (s.respond (.fault c)) ↔ P := by
  refine ⟨fun hexec => by_contra fun hP => ?_, hfault⟩
  have hsame : s.respond (.fault c) = s.respond (.y v) :=
    Host.Outcome.next.inj (hexec.symm.trans (hvalue hP))
  exact nomatch State.respond_inj hsame

/-- Settles O48: what DIV and MOD answer for a zero and for a nonzero divisor makes the fault exact, and a
realignment by `W` or more leaves every divisor zero. -/
theorem divisionByZeroFaults : Obligations.DivisionByZeroFaults := by
  intro f fb s
  obtain ⟨hdivZero, hdivValue⟩ := divFollowsTheFiveSteps f fb s
  obtain ⟨hmodZero, hmodValue⟩ := modIsTruncatedRemainder f fb s _ rfl
  exact ⟨exec_eq_fault_iff hdivZero hdivValue, exec_eq_fault_iff hmodZero hmodValue,
    fun hlarge => hmodZero (nativeShift_of_large s.signed s.b hlarge)⟩

end Sys2Proof.Machine
end

section
/-!
PROOFS. Liveness (spec/70_reset_and_hazards.md R197): a host with no plan left waits for its command and takes
every response. Each of its cycles keeps the responses owed to it and leaves less work, until none is left.
-/

namespace Sys2Proof.Machine

namespace Fxu

variable {w : Nat} {f : Fxu w}

/-- The host only waits: no reset is sampled, it has no plan left, and it holds what it offered (R194). -/
structure Draining (f : Fxu w) : Prop where
  rst : f.inp.rst = false
  host : f.host = []
  held : f.held = true

/-- The block whose cycle ends: the presented command has joined those in flight, if it is accepted. -/
def afterAccept (signed : Bool) (f : Fxu w) : Fxu w :=
  if f.accepts then f.respond (outcome signed f.inp.command) else f

/-- Every response the host has had or may still expect: those delivered, those in flight, and the outcome
of the command it presents (R45). -/
def expected (signed : Bool) (f : Fxu w) : List (Response w) :=
  f.delivered ++ f.inflight.map Pending.rsp
    ++ if f.inp.cmdValid then [outcome signed f.inp.command] else []

/-- The cycles that are enough to present and deliver everything in flight to a host that takes it. -/
def waiting (f : Fxu w) : Nat := (f.inflight.map fun p => p.wait + 1).sum

/-- The cycles that are enough to accept the presented command, if there is one, and to answer it. -/
def commandWork (f : Fxu w) : Nat :=
  if f.inp.cmdValid then f.cmdWait + 1 + (f.lats.headD 0 + 1) else 0

/-- A bound on the cycles until everything is answered; a host that takes no response yet has one more. -/
def work (f : Fxu w) : Nat := f.waiting + f.commandWork + if f.inp.rspReady then 0 else 1

/-! ## Acceptance -/

@[simp] theorem afterAccept_inp (signed : Bool) (f : Fxu w) : (f.afterAccept signed).inp = f.inp := by
  unfold afterAccept; split <;> rfl

@[simp] theorem afterAccept_host (signed : Bool) (f : Fxu w) : (f.afterAccept signed).host = f.host := by
  unfold afterAccept; split <;> rfl

@[simp] theorem afterAccept_cmdWait (signed : Bool) (f : Fxu w) :
    (f.afterAccept signed).cmdWait = f.cmdWait := by
  unfold afterAccept; split <;> rfl

@[simp] theorem afterAccept_delivered (signed : Bool) (f : Fxu w) :
    (f.afterAccept signed).delivered = f.delivered := by
  unfold afterAccept; split <;> rfl

@[simp] theorem afterAccept_cmdReady (signed : Bool) (f : Fxu w) :
    (f.afterAccept signed).cmdReady = f.cmdReady := by
  simp [cmdReady]

@[simp] theorem afterAccept_accepts (signed : Bool) (f : Fxu w) :
    (f.afterAccept signed).accepts = f.accepts := by
  simp [accepts]

theorem afterAccept_of_accepts (signed : Bool) (h : f.accepts = true) :
    f.afterAccept signed = f.respond (outcome signed f.inp.command) :=
  if_pos h

theorem afterAccept_of_not_accepts (signed : Bool) (h : f.accepts = false) : f.afterAccept signed = f :=
  if_neg (by simp [h])

theorem cmdValid_of_accepts (h : f.accepts = true) : f.inp.cmdValid = true := by
  simp only [accepts, Bool.and_eq_true] at h
  exact h.1.2

/-! ## The end of a cycle -/

/-- What a host without a plan drives next (log entry 2). -/
theorem nextInp_of_no_plan (h : f.host = []) :
    f.nextInp = { f.inp with rst := false, cmdValid := f.inp.cmdValid && !f.accepts, rspReady := true } := by
  simp [nextInp, h]

/-- A host without a plan goes on presenting exactly the command it owes. -/
theorem edge_held_of_no_plan (h : f.host = []) : f.edge.held = true := by
  simp only [held, edge_offered, nextOffered, edge_inp, nextInp_of_no_plan h]
  cases f.inp.cmdValid && !f.accepts <;> simp

/-- A host without a plan goes on only waiting. -/
theorem edge_draining_of_no_plan (h : f.host = []) : f.edge.Draining where
  rst := by simp [nextInp_of_no_plan h]
  host := by simp [h]
  held := edge_held_of_no_plan h

/-- One more cycle lengthens no latency. -/
theorem sum_wait_pred_le (ps : List (Pending w)) :
    (ps.map fun p => p.wait - 1 + 1).sum ≤ (ps.map fun p => p.wait + 1).sum :=
  List.sum_le_sum fun _ _ => by omega

/-- What is left to wait for: the taken response is gone, and one cycle of every other latency has passed. -/
theorem edge_waiting (f : Fxu w) :
    f.edge.waiting = ((if f.takes then f.inflight.tail else f.inflight).map fun p => p.wait - 1 + 1).sum := by
  simp [waiting, nextInflight, Function.comp_def]

/-- The end of a cycle adds nothing to wait for. -/
theorem edge_waiting_le (f : Fxu w) : f.edge.waiting ≤ f.waiting := by
  rw [edge_waiting]
  refine (sum_wait_pred_le _).trans ?_
  split
  · exact ((List.tail_sublist _).map _).sum_le_sum (by simp)
  · exact le_rfl

/-- The oldest command in flight comes nearer to its answer in every cycle of a host that takes responses:
it is taken, or one cycle of its latency passes. -/
theorem edge_waiting_lt (hready : f.inp.rspReady = true) (hne : f.inflight ≠ []) :
    f.edge.waiting < f.waiting := by
  rw [edge_waiting]
  unfold waiting
  obtain ⟨p, ps, hps⟩ := List.exists_cons_of_ne_nil hne
  have hle := sum_wait_pred_le ps
  by_cases hwait : p.wait = 0
  · have htakes : f.takes = true := by simp [takes, rspValid, presented, hps, hwait, hready]
    simp only [htakes, hps, if_true, List.tail_cons, List.map_cons, List.sum_cons]
    omega
  · have htakes : f.takes = false := by simp [takes, rspValid, presented, hps, hwait]
    simp only [htakes, hps, Bool.false_eq_true, if_false, List.map_cons, List.sum_cons]
    omega

/-! ## A whole cycle -/

/-- Under a host that only waits the machine steps: there is no reset and nothing to refuse. -/
theorem Draining.step {p : Params} {f : Fxu p.width.bits} (h : f.Draining) :
    step ⟨p, f⟩ = .next ⟨p, (f.afterAccept p.signed).edge⟩ :=
  step_of_not_rst h.rst h.held

/-- A host that only waits still only waits after the cycle. -/
theorem Draining.cycle (h : f.Draining) (signed : Bool) : (f.afterAccept signed).edge.Draining :=
  edge_draining_of_no_plan (by simp [h.host])

/-- What a host that only waits drives after a cycle. -/
theorem Draining.cycle_inp (h : f.Draining) (signed : Bool) :
    (f.afterAccept signed).edge.inp
      = { f.inp with rst := false, cmdValid := f.inp.cmdValid && !f.accepts, rspReady := true } := by
  rw [edge_inp, nextInp_of_no_plan (by simp [h.host])]
  simp

/-- A cycle only moves responses nearer to the host: an accepted command's outcome joins those in flight, and
the oldest in flight joins those delivered. -/
theorem Draining.cycle_expected (h : f.Draining) (signed : Bool) :
    (f.afterAccept signed).edge.expected signed = f.expected signed := by
  simp only [expected, h.cycle_inp, edge_delivered, edge_inflight, afterAccept_delivered]
  rw [List.append_assoc f.delivered, edge_keeps_responses]
  cases ha : f.accepts with
  | true => simp [afterAccept_of_accepts signed ha, cmdValid_of_accepts ha]
  | false => simp [afterAccept_of_not_accepts signed ha]

/-- An accepted command leaves only its latency to wait for. -/
theorem Draining.cycle_work_lt_of_accepts (h : f.Draining) (signed : Bool) (ha : f.accepts = true) :
    (f.afterAccept signed).edge.work < f.work := by
  have hwaiting := (f.afterAccept signed).edge_waiting_le
  have hjoin : (f.afterAccept signed).waiting = f.waiting + (f.lats.headD 0 + 1) := by
    simp [afterAccept_of_accepts signed ha, waiting]
  simp only [work, commandWork, h.cycle_inp, ha, cmdValid_of_accepts ha, Bool.not_true, Bool.and_false,
    Bool.false_eq_true, if_true, if_false]
  omega

/-- A command that is presented and not accepted waits for `cmd_ready` one cycle less. -/
theorem Draining.cycle_work_lt_of_waits (h : f.Draining) (signed : Bool) (ha : f.accepts = false)
    (hvalid : f.inp.cmdValid = true) : (f.afterAccept signed).edge.work < f.work := by
  have hready : f.cmdReady = false := by simpa [accepts, h.rst, hvalid] using ha
  have hwait : f.cmdWait ≠ 0 := by simpa [cmdReady] using hready
  have hwaiting := f.edge_waiting_le
  have hinp := h.cycle_inp signed
  rw [afterAccept_of_not_accepts signed ha] at hinp ⊢
  simp only [work, commandWork, hinp, ha, hvalid, hready, edge_cmdWait, edge_lats, Bool.not_false,
    Bool.and_true, Bool.false_eq_true, if_true, if_false]
  omega

/-- With no command presented, the oldest in flight comes nearer to its answer, once the host takes
responses. -/
theorem Draining.cycle_work_lt_of_inflight (h : f.Draining) (signed : Bool)
    (hvalid : f.inp.cmdValid = false) (hne : f.inflight ≠ []) :
    (f.afterAccept signed).edge.work < f.work := by
  have ha : f.accepts = false := by simp [accepts, hvalid]
  have hinp := h.cycle_inp signed
  rw [afterAccept_of_not_accepts signed ha] at hinp ⊢
  simp only [work, commandWork, hinp, hvalid, Bool.false_and, Bool.false_eq_true, if_true, if_false]
  cases hready : f.inp.rspReady with
  | true => simpa using edge_waiting_lt hready hne
  | false => simpa [Nat.lt_succ_iff] using f.edge_waiting_le

/-- Every cycle leaves less work while there is any. -/
theorem Draining.cycle_work_lt (h : f.Draining) (signed : Bool)
    (hbusy : ¬(f.inflight = [] ∧ f.inp.cmdValid = false)) :
    (f.afterAccept signed).edge.work < f.work := by
  cases hvalid : f.inp.cmdValid with
  | false => exact h.cycle_work_lt_of_inflight signed hvalid fun hnil => hbusy ⟨hnil, hvalid⟩
  | true =>
    cases ha : f.accepts with
    | true => exact h.cycle_work_lt_of_accepts signed ha
    | false => exact h.cycle_work_lt_of_waits signed ha hvalid

/-- So everything expected is delivered after finitely many cycles. -/
theorem Draining.exists_answered {p : Params} {f : Fxu p.width.bits} (h : f.Draining) :
    ∃ (n : Nat) (c : Fxu p.width.bits), runSteps n ⟨p, f⟩ = .next ⟨p, c⟩
      ∧ c.inflight = [] ∧ c.inp.cmdValid = false ∧ c.delivered = f.expected p.signed := by
  induction hm : f.work using Nat.strong_induction_on generalizing f with
  | _ m ih =>
    by_cases hdone : f.inflight = [] ∧ f.inp.cmdValid = false
    · exact ⟨0, f, rfl, hdone.1, hdone.2, by simp [expected, hdone]⟩
    · obtain ⟨n, c, hrun, hinflight, hvalid, hdelivered⟩ :=
        ih _ (hm ▸ h.cycle_work_lt p.signed hdone) (h.cycle p.signed) rfl
      exact ⟨n + 1, c, runSteps_succ h.step hrun, hinflight, hvalid,
        hdelivered.trans (h.cycle_expected p.signed)⟩

end Fxu

/-- Settles O24: the host of the statement only waits, and its work comes to an end. -/
theorem everyCommandIsAnswered : Obligations.EveryCommandIsAnswered :=
  fun s hrst hhost hheld => Fxu.Draining.exists_answered (p := s.params) (f := s.fxu) ⟨hrst, hhost, hheld⟩

end Sys2Proof.Machine
end

section
/-!
PROOFS. The command word (spec/30_encoding.md): decoding and encoding undo each other (R50, R53), and what the
assembler makes of an operation and its counts (R61 to R63).
-/

namespace Sys2Proof

/-! ## The round trip -/

/-- Every operation code fits the 5 bits of its field. -/
theorem code_lt (i : Instr) : i.code < 32 := by
  cases i <;> simp [Instr.code]

theorem wellFormed_iff {i : Instr} : i.wellFormed = true ↔ i.f < 128 ∧ i.fb < 128 := by
  simp [Instr.wellFormed]

theorem encode_toNat {i : Instr} (h : i.wellFormed = true) :
    (encode i).toNat = i.fb * 4096 + i.f * 32 + i.code :=
  Laws.CommandWord.of_code (code_lt i) h

/-- The three fields make up the whole word (R50). -/
theorem fields_toNat (cmd : BitVec 19) : cmdFB cmd * 4096 + cmdF cmd * 32 + cmdOp cmd = cmd.toNat := by
  have hlt := cmd.isLt
  unfold cmdFB cmdF cmdOp
  omega

/-- Settles O1: each field of the encoded word is the instruction's own, and the opcode map inverts the
code. -/
theorem decodeOfEncode : Obligations.DecodeOfEncode := by
  intro i h
  obtain ⟨hf, hfb⟩ := wellFormed_iff.mp h
  have hcode := code_lt i
  have hword := encode_toNat h
  have hop : cmdOp (encode i) = i.code := by unfold cmdOp; omega
  have hF : cmdF (encode i) = i.f := by unfold cmdF; omega
  have hFB : cmdFB (encode i) = i.fb := by unfold cmdFB; omega
  rw [decode, hop, hF, hFB, instrOfOp_code]

/-- A word that decodes has the code and the counts of the instruction as its fields. -/
theorem fields_of_decode {cmd : BitVec 19} {i : Instr} (h : decode cmd = .ok i) :
    i.code = cmdOp cmd ∧ i.f = cmdF cmd ∧ i.fb = cmdFB cmd := by
  by_cases hres : reservedCode (cmdOp cmd)
  · rw [decode_of_reservedCode hres] at h
    cases h
  · obtain ⟨j, hj, hfields⟩ := decode_of_not_reservedCode hres
    rwa [Except.ok.inj (h.symm.trans hj)]

/-- Settles O2: the fields of a word that decodes are the instruction's, each field is of 7 bits, and the
fields make up the word. -/
theorem encodeOfDecode : Obligations.EncodeOfDecode := by
  intro cmd i h
  obtain ⟨hcode, hf, hfb⟩ := fields_of_decode h
  have hwf : i.wellFormed = true := by
    rw [wellFormed_iff, hf, hfb]
    exact ⟨Nat.mod_lt _ (by decide), Nat.mod_lt _ (by decide)⟩
  refine ⟨BitVec.eq_of_toNat_eq ?_, hwf⟩
  rw [encode_toNat hwf, hcode, hf, hfb, fields_toNat]

/-- Settles O4: each word is closed, and decoding computes. -/
theorem canonicalWordsDecode : Obligations.CanonicalWordsDecode :=
  ⟨rfl, rfl, rfl, rfl, rfl, rfl, rfl, rfl⟩

/-! ## The assembler -/

/-- The eleven operations that read `FB` are written with both suffixes and carry the counts written. -/
theorem written_with_fFb {op : Nat → Nat → Instr}
    (h : op ∈ [Instr.cvt, .add, .sub, .mul, .div, .mod, .eq, .lt, .le, .gt, .ge]) :
    (op 0 0).suffix = .fFb ∧ ∀ f fb, (op f fb).f = f ∧ (op f fb).fb = fb := by
  simp only [List.mem_cons, List.not_mem_nil, or_false] at h
  rcases h with rfl | rfl | rfl | rfl | rfl | rfl | rfl | rfl | rfl | rfl | rfl <;>
    exact ⟨rfl, fun _ _ => ⟨rfl, rfl⟩⟩

/-- Settles O5: both texts assemble to the operation with `F` in both fields, which is well-formed for a
7-bit `F`. -/
theorem assemblerDefaultsFBToF : Obligations.AssemblerDefaultsFBToF := by
  intro op hop f hf
  obtain ⟨hsuffix, hcounts⟩ := written_with_fFb hop
  have hwf : (op f f).wellFormed = true := by
    rw [wellFormed_iff, (hcounts f f).1, (hcounts f f).2]
    exact ⟨hf, hf⟩
  simp [assemble, hsuffix, hwf]

end Sys2Proof
end

section
/-!
PROOFS. The step (spec/10_state.md R26, R27; spec/70_reset_and_hazards.md R190 to R199): what it runs and how
it answers, what each meaning leaves unchanged, what a reset edge discards, and the two channels at an edge.
-/

namespace Sys2Proof.Machine

/-! ## Acceptance -/

theorem Fxu.accepts_iff {w : Nat} {f : Fxu w} :
    f.accepts = true ↔ f.inp.rst = false ∧ f.inp.cmdValid = true ∧ f.cmdWait = 0 := by
  simp [accepts, cmdReady, and_assoc]

/-- The host that owes a command it does not present unchanged (R194). -/
theorem Fxu.held_eq_false_iff {w : Nat} {f : Fxu w} : f.held = false ↔
    ∃ c, f.offered = some c ∧ ¬(f.inp.cmdValid = true ∧ f.inp.command = c) := by
  unfold held
  cases f.offered <;> simp

/-- Settles O6: the step answers an accepted command with its outcome, which is what the meaning of the
decoded instruction answers. -/
theorem stepRunsTheDecodedInstruction : Obligations.StepRunsTheDecodedInstruction := by
  intro s i hrst hheld hvalid hwait hdec
  rw [step_of_accepts hheld (Fxu.accepts_iff.mpr ⟨hrst, hvalid, hwait⟩), exec_of_decode hdec]

theorem decode_of_decodeTableWord {nbits w : Nat} {i : Instr} (h : decodeTableWord nbits w = some i) :
    decode (BitVec.ofNat 19 (w % 2 ^ nbits)) = .ok i := by
  unfold decodeTableWord at h
  split at h
  · next j hj => rw [hj, Option.some.inj h]
  · cases h

/-- Settles O7: the next edge after `withFetchWord` accepts the word, and nothing else is owed. -/
theorem fetchWordRunsNext : Obligations.FetchWordRunsNext := by
  intro s nbits w i h
  exact stepRunsTheDecodedInstruction (s.withFetchWord nbits w) i rfl rfl rfl rfl
    (decode_of_decodeTableWord h)

/-- Settles O8: what a step does with an accepted command. -/
theorem stepAnswersWithTheOutcome : Obligations.StepAnswersWithTheOutcome :=
  fun _ => step_of_accepts

/-- Settles O22: both blocks answer with the outcome of the one command. -/
theorem outcomeIgnoresHistory : Obligations.OutcomeIgnoresHistory := by
  intro p f g hf hg hfa hga hcmd
  refine ⟨outcome p.signed f.inp.command, step_of_accepts (s := ⟨p, f⟩) hf hfa, ?_⟩
  rw [hcmd]
  exact step_of_accepts (s := ⟨p, g⟩) hg hga

/-! ## What a meaning answers -/

/-- Everything a meaning can answer: TOFLT a result on `fy`, every other operation a result on `y`, except for
the two faults of DIV and MOD and of FROMFLT (R55, R171 to R173). -/
theorem result_cases {w : Nat} (signed : Bool) (i : Instr) (c : Command w) :
    (∃ v, result signed i c = .y v ∧ i.mnemonic ≠ "TOFLT") ∨
    (∃ v, result signed i c = .fy v ∧ i.mnemonic = "TOFLT") ∨
    (result signed i c = .fault .divisionByZero ∧ i.mnemonic ∈ ["DIV", "MOD"]) ∨
    (result signed i c = .fault .convInvalid ∧ i.mnemonic = "FROMFLT") := by
  cases i
  case toflt f fb => exact .inr (.inl ⟨_, rfl, rfl⟩)
  case fromflt f fb =>
    simp only [result]
    cases fromFloat w signed f c.fa with
    | none => exact .inr (.inr (.inr ⟨rfl, rfl⟩))
    | some v => exact .inl ⟨v, rfl, by simp [Instr.mnemonic]⟩
  case div f fb =>
    simp only [result]
    cases divide signed fb c.a c.b with
    | none => exact .inr (.inr (.inl ⟨rfl, by simp [Instr.mnemonic]⟩))
    | some v => exact .inl ⟨v, rfl, by simp [Instr.mnemonic]⟩
  case mod f fb =>
    simp only [result]
    cases modulo signed c.a (realign signed c.b fb f) with
    | none => exact .inr (.inr (.inl ⟨rfl, by simp [Instr.mnemonic]⟩))
    | some v => exact .inl ⟨v, rfl, by simp [Instr.mnemonic]⟩
  all_goals exact .inl ⟨_, rfl, by simp [Instr.mnemonic]⟩

/-- Settles O10: the fault code of each of the things a meaning can answer. -/
theorem faultCodesAndTheirRaisers : Obligations.FaultCodesAndTheirRaisers := by
  intro i s
  refine ⟨result s.signed i s.command, exec_result i s, ?_, rfl⟩
  obtain ⟨v, hr, -⟩ | ⟨v, hr, -⟩ | ⟨hr, hm⟩ | ⟨hr, hm⟩ := result_cases s.signed i s.command <;> rw [hr]
  · exact .inl ⟨rfl, rfl⟩
  · exact .inl ⟨rfl, rfl⟩
  · exact .inr (.inl ⟨rfl, rfl, hm⟩)
  · exact .inr (.inr ⟨rfl, rfl, hm⟩)

/-- Settles O11: the operations of each of the things a meaning can answer. -/
theorem resultKindOfEachOperation : Obligations.ResultKindOfEachOperation := by
  intro i s
  refine ⟨result s.signed i s.command, exec_result i s, ?_⟩
  obtain ⟨v, hr, hm⟩ | ⟨v, hr, hm⟩ | ⟨hr, hm⟩ | ⟨hr, hm⟩ := result_cases s.signed i s.command <;> rw [hr]
  · exact hm
  · exact hm
  · exact List.mem_append_left ["FROMFLT"] hm
  · simp [hm]

/-- Settles O12: every meaning only accepts the command with one response. -/
theorem frameOfEveryOperation : Obligations.FrameOfEveryOperation := by
  intro i s t h
  obtain ⟨r, hr⟩ := exec_responds i s
  rw [hr] at h
  cases h
  exact ⟨s.fxu.respond r, rfl, rfl, rfl, rfl, rfl, rfl, rfl, rfl, rfl, rfl, r, rfl⟩

/-! ## Reset -/

theorem Fxu.rspValid_of_inflight_nil {w : Nat} {f : Fxu w} (h : f.inflight = []) : f.rspValid = false := by
  simp [rspValid, presented, h]

/-- Settles O13: what a reset edge leaves of each list. -/
theorem resetEdgeDiscardsEverything : Obligations.ResetEdgeDiscardsEverything := fun s hrst =>
  ⟨s.fxu.resetEdge, step_of_rst hrst, rfl, Fxu.rspValid_of_inflight_nil rfl, rfl, rfl, rfl⟩

/-- Settles O14: a block right after reset has nothing in flight, so its ports carry nothing. -/
theorem stateAfterReset : Obligations.StateAfterReset :=
  fun _ => ⟨rfl, rfl, rfl, rfl, rfl⟩

/-- Settles O20: nothing is accepted and nothing owed right after reset. -/
theorem responseOrderAfterReset : Obligations.ResponseOrderAfterReset :=
  ⟨rfl, fun _ => rfl⟩

/-! ## The output ports -/

theorem FaultCode.code_ne_zero (c : FaultCode) : c.code ≠ 0#2 := by
  cases c <;> decide

/-- Settles O15: the ports of each kind of response. -/
theorem outputsOfAPresentedResponse : Obligations.OutputsOfAPresentedResponse := by
  intro w f r h
  refine ⟨by simp [Fxu.rspValid, h], by simp [Fxu.faultPort, h], fun hne => ?_, fun hzero => ?_⟩
  · cases r with
    | y v => exact absurd rfl hne
    | fy v => exact absurd rfl hne
    | fault c => simp [Fxu.yPort, Fxu.fyPort, h]
  · cases r with
    | y v => simp [Fxu.yPort, Fxu.fyPort, h]
    | fy v => simp [Fxu.yPort, Fxu.fyPort, h]
    | fault c => exact absurd hzero c.code_ne_zero

/-! ## What every step keeps, and when there is none -/

/-- Settles O16: no kind of edge touches the constants. -/
theorem instanceConstantsNeverChange : Obligations.InstanceConstantsNeverChange := by
  intro s t h
  obtain ⟨-, e⟩ | ⟨-, -, -, e⟩ | ⟨-, -, -, e⟩ | ⟨-, -, e⟩ := step_cases s <;> rw [e] at h <;> cases h
  all_goals rfl

/-- Settles O17: of the four kinds of step the one refusal is that of a host that does not hold its
command. -/
theorem stopsOnlyForABrokenHost : Obligations.StopsOnlyForABrokenHost := by
  intro s
  rw [← Fxu.held_eq_false_iff]
  obtain ⟨hrst, e⟩ | ⟨-, hheld, -, e⟩ | ⟨-, hheld, -, e⟩ | ⟨hrst, hheld, e⟩ := step_cases s
  · simp [hrst, e]
  · simp [hheld, e]
  · simp [hheld, e]
  · simp [hrst, hheld, e]

/-- Settles O19: every step keeps the order of responses. -/
theorem everyStepKeepsResponseOrder : Obligations.EveryStepKeepsResponseOrder :=
  fun _ _ => State.InOrder.step

/-! ## The two channels at an edge -/

/-- The responses in flight after an edge are the earlier ones, without the oldest if it is taken. -/
theorem Fxu.nextInflight_responses {w : Nat} (f : Fxu w) : f.nextInflight.map Pending.rsp
    = if f.takes then (f.inflight.map Pending.rsp).tail else f.inflight.map Pending.rsp := by
  unfold nextInflight
  split <;> simp [Function.comp_def, List.map_tail]

/-- Settles O18: without a handshake the cycle only ends. -/
theorem noHandshakeNoAcceptance : Obligations.NoHandshakeNoAcceptance := by
  intro s hrst hheld hno
  have hna : s.fxu.accepts = false := by
    rcases hno with h | h <;> simp [Fxu.accepts, h]
  refine ⟨s.fxu.edge, step_of_not_accepts hrst hheld hna, rfl, rfl, ?_⟩
  rw [Fxu.edge_inflight, Fxu.nextInflight_responses, Fxu.takes]
  simp only [Bool.and_eq_true]

/-- Time does not take a presented response away that the host leaves (R194). -/
theorem Fxu.edge_presented_of_not_ready {w : Nat} {f : Fxu w} {r : Response w} (h : f.presented = some r)
    (hready : f.inp.rspReady = false) : f.edge.presented = some r := by
  unfold presented at h ⊢
  rw [edge_inflight, nextInflight, if_neg (by simp [takes, hready])]
  cases hf : f.inflight with
  | nil => simp [hf] at h
  | cons p ps =>
    simp only [hf, Option.ite_none_right_eq_some] at h
    simp [h]

/-- Settles O25: a host that takes no response leaves the block's responses as they are. -/
theorem untakenResponseIsHeld : Obligations.UntakenResponseIsHeld := by
  intro s g r hrst hheld hg hpres hready
  have hg' : g = s.fxu.afterAccept s.signed := hg
  have hgready : g.inp.rspReady = false := by rw [hg', Fxu.afterAccept_inp, hready]
  obtain ⟨htaken, hkept⟩ := Fxu.edge_of_not_taken (f := g) (by simp [Fxu.takes, hgready])
  refine ⟨g.edge, hg ▸ step_of_not_rst hrst hheld, Fxu.edge_presented_of_not_ready hpres hgready, hkept, ?_⟩
  rw [Fxu.edge_delivered, htaken, List.append_nil, hg', Fxu.afterAccept_delivered]

/-- Settles O57: the end of a cycle takes the presented response, or moves none. -/
theorem takenResponseIsDelivered : Obligations.TakenResponseIsDelivered := by
  intro s g hrst hheld hg
  have hg' : g = s.fxu.afterAccept s.signed := hg
  have hinp : g.inp = s.fxu.inp := by rw [hg', Fxu.afterAccept_inp]
  have hdel : g.delivered = s.fxu.delivered := by rw [hg', Fxu.afterAccept_delivered]
  refine ⟨g.edge, hg ▸ step_of_not_rst hrst hheld, fun ⟨hvalid, hready⟩ => ?_, fun hnot => ?_⟩
  · obtain ⟨r, hpres, htaken, hinflight⟩ := Fxu.edge_of_taken hvalid (hinp ▸ hready)
    exact ⟨r, hpres, by rw [Fxu.edge_delivered, htaken, hdel], hinflight⟩
  · have htakes : g.takes = false := by
      rw [← hinp, ← Bool.and_eq_true] at hnot
      exact Bool.eq_false_iff.mpr hnot
    obtain ⟨htaken, hkept⟩ := Fxu.edge_of_not_taken htakes
    exact ⟨by rw [Fxu.edge_delivered, htaken, List.append_nil, hdel], hkept⟩

end Sys2Proof.Machine
end

section
/-!
PROOFS. The record of faults (spec/60_exceptions.md R180, log entry 15): what an edge adds to it, and that no
entry leaves it.
-/

namespace Sys2Proof.Machine

/-! ## What an edge adds -/

@[simp] theorem Fxu.afterAccept_faults {w : Nat} (signed : Bool) (f : Fxu w) :
    (f.afterAccept signed).faults = f.faults := by
  unfold afterAccept; split <;> rfl

/-- What a step that goes on adds to the two records: a reset edge adds the fault of everything in flight and
empties the delivered responses; any other edge delivers some responses and adds their faults. -/
theorem step_records {s t : State} (h : step s = .next t) :
    (s.fxu.inp.rst = true ∧ t = s.resetEdge) ∨
    (s.fxu.inp.rst = false ∧ ∃ c : Fxu s.w, t = ⟨s.params, c⟩ ∧ ∃ l : List (Response s.w),
      c.delivered = s.fxu.delivered ++ l ∧ c.faults = s.fxu.faults ++ l.filterMap Response.faultOf) := by
  obtain ⟨hrst, e⟩ | ⟨hrst, -, -, e⟩ | ⟨hrst, -, -, e⟩ | ⟨-, -, e⟩ := step_cases s <;>
    rw [e] at h <;> cases h
  · exact .inl ⟨hrst, rfl⟩
  · exact .inr ⟨hrst, _, rfl, _, rfl, rfl⟩
  · exact .inr ⟨hrst, _, rfl, _, rfl, rfl⟩

/-- Settles O58: what each kind of edge adds. -/
theorem everyFaultMetIsRecorded : Obligations.EveryFaultMetIsRecorded := by
  intro s c h
  obtain ⟨hrst, e⟩ | ⟨hrst, d, e, hadded⟩ := step_records h <;> cases e
  · exact ⟨fun _ => by simp [List.filterMap_map], fun hno => by simp [hrst] at hno⟩
  · exact ⟨fun hyes => by simp [hrst] at hyes, fun _ => hadded⟩

/-- Settles O59: a reset edge empties the delivered responses, and any other edge adds the same faults to
both sides. -/
theorem everyStepKeepsFaultsRecorded : Obligations.EveryStepKeepsFaultsRecorded := by
  intro s t hs h
  obtain ⟨-, rfl⟩ | ⟨-, c, rfl, l, hdel, hfaults⟩ := step_records h
  · exact List.nil_suffix
  · obtain ⟨older, holder⟩ := hs
    refine ⟨older, ?_⟩
    simp only [hdel, hfaults, ← holder, List.filterMap_append, List.append_assoc]

/-- Settles O60: both records are empty right after reset. -/
theorem faultsRecordedAfterReset : Obligations.FaultsRecordedAfterReset :=
  ⟨⟨List.nil_suffix, rfl⟩, fun _ => ⟨List.nil_suffix, rfl⟩⟩

/-! ## What stays -/

/-- The first fault of a record stays the first, with its index, when responses join at the end (R195). -/
theorem firstFault_append {w : Nat} {rs : List (Response w)} (h : (firstFault rs).isSome = true)
    (later : List (Response w)) : firstFault (rs ++ later) = firstFault rs := by
  induction rs with
  | nil => simp [firstFault] at h
  | cons r rs ih =>
    cases hr : r.faultOf with
    | some c => simp [firstFault, hr]
    | none =>
      simp only [firstFault, hr, Option.isSome_map] at h
      simp [firstFault, hr, ih h]

theorem step_faults_prefix {s t : State} (h : step s = .next t) : s.fxu.faults <+: t.fxu.faults := by
  obtain ⟨-, rfl⟩ | ⟨-, c, rfl, l, -, hfaults⟩ := step_records h
  · exact List.prefix_append ..
  · exact hfaults ▸ List.prefix_append ..

/-- A record with an entry is never empty again. -/
theorem step_keeps_not_clean {s t : State} (hs : s.clean = false) (h : step s = .next t) :
    t.clean = false := by
  rw [State.clean, List.isEmpty_eq_false_iff] at hs ⊢
  exact fun hnil => hs (List.prefix_nil.mp (hnil ▸ step_faults_prefix h))

/-- Settles O26: every edge only adds at the end of a record, except that a reset edge empties the delivered
responses, and normal completion asks for an empty record of faults. -/
theorem recordedFaultsStay : Obligations.RecordedFaultsStay := by
  refine ⟨fun s t h => ⟨step_faults_prefix h, fun hno hsome => ?_⟩, fun s t k hrun hs => ?_⟩
  · obtain ⟨hrst, -⟩ | ⟨-, c, rfl, l, hdel, -⟩ := step_records h
    · simp [hrst] at hno
    · exact hdel ▸ firstFault_append hsome l
  · have ht : t.clean = false :=
      runSteps_keeps (P := fun u => u.clean = false) (fun _ _ => step_keeps_not_clean) hs hrun
    simp [State.completedNormally, ht]

end Sys2Proof.Machine
end

section
/-!
PROOFS. The shifted product (spec/40_bit_primitives.md R73 to R75): how far the four partial products fall
short of the whole, its factor that is a power of two (spec/42_arithmetic.md R112), and its sign (R74).
-/

namespace Sys2Proof.Machine

/-! ## Truncated sums -/

/-- A summand that the shift leaves whole is shifted on its own without loss. -/
theorem shiftedTerm_add_exact (p q : Nat) {n : Nat} {k : Int} (h : k ≤ n) :
    shiftedTerm (p * 2 ^ n + q) k = shiftedTerm (p * 2 ^ n) k + shiftedTerm q k := by
  unfold shiftedTerm
  split
  · next hk =>
    have hdvd : 2 ^ k.toNat ∣ p * 2 ^ n := (pow_dvd_pow 2 (by omega)).mul_left p
    exact Nat.add_div_of_dvd_right hdvd
  · exact add_mul ..

/-- Two numbers shifted each on its own fall short of their shifted sum by at most 1. -/
theorem shiftedTerm_add_shortfall (p q : Nat) (k : Int) :
    ∃ d ≤ 1, shiftedTerm p k + shiftedTerm q k + d = shiftedTerm (p + q) k := by
  unfold shiftedTerm
  split
  · rw [Nat.add_div (by positivity)]
    split
    · exact ⟨1, le_rfl, rfl⟩
    · exact ⟨0, zero_le_one, rfl⟩
  · exact ⟨0, zero_le_one, (add_mul ..).symm⟩

/-- The shortfall of one addition, which is none where the shift leaves the first number whole. -/
theorem shiftedTerm_add_cases (p q n : Nat) (k : Int) :
    ∃ d ≤ 1, shiftedTerm (p * 2 ^ n) k + shiftedTerm q k + d = shiftedTerm (p * 2 ^ n + q) k
      ∧ (k ≤ n → d = 0) := by
  by_cases h : k ≤ n
  · exact ⟨0, zero_le_one, (shiftedTerm_add_exact p q h).symm, fun _ => rfl⟩
  · obtain ⟨d, hd, hsum⟩ := shiftedTerm_add_shortfall (p * 2 ^ n) q k
    exact ⟨d, hd, hsum, fun hk => absurd hk h⟩

/-! ## The shortfall of the four partial products -/

/-- A product by the halves of its operands. -/
theorem mul_eq_halves {w : Nat} (heven : 2 * (w / 2) = w) (x y : Nat) :
    x * y = x / 2 ^ (w / 2) * (y / 2 ^ (w / 2)) * 2 ^ w
      + (x / 2 ^ (w / 2) * (y % 2 ^ (w / 2)) * 2 ^ (w / 2)
        + (x % 2 ^ (w / 2) * (y / 2 ^ (w / 2)) * 2 ^ (w / 2) + x % 2 ^ (w / 2) * (y % 2 ^ (w / 2)))) := by
  have hpow : 2 ^ w = 2 ^ (w / 2) * 2 ^ (w / 2) := by rw [← pow_add, ← two_mul, heven]
  calc x * y = (2 ^ (w / 2) * (x / 2 ^ (w / 2)) + x % 2 ^ (w / 2))
        * (2 ^ (w / 2) * (y / 2 ^ (w / 2)) + y % 2 ^ (w / 2)) := by simp only [Nat.div_add_mod]
    _ = _ := by rw [hpow]; ring

/-- The four partial products fall short of the shifted product by at most 3, one for each of their
additions; an amount up to `W` leaves the product of the high halves whole, and one up to `W/2` the mixed
products too (R75). -/
theorem partialSum_shortfall {w : Nat} (heven : 2 * (w / 2) = w) (x y : Nat) (k : Int) :
    ∃ d ≤ 3, partialSum w x y k + d = shiftedTerm (x * y) k ∧ (k ≤ (w : Int) → d ≤ 2)
      ∧ (k ≤ ((w / 2 : Nat) : Int) → d = 0) := by
  rw [mul_eq_halves heven, partialSum]
  simp only [← shiftedTerm_mul_two_pow]
  generalize x / 2 ^ (w / 2) * (y / 2 ^ (w / 2)) = hh
  generalize x / 2 ^ (w / 2) * (y % 2 ^ (w / 2)) = hl
  generalize x % 2 ^ (w / 2) * (y / 2 ^ (w / 2)) = lh
  generalize x % 2 ^ (w / 2) * (y % 2 ^ (w / 2)) = ll
  obtain ⟨d₁, h₁, hsum₁, hexact₁⟩ :=
    shiftedTerm_add_cases hh (hl * 2 ^ (w / 2) + (lh * 2 ^ (w / 2) + ll)) w k
  obtain ⟨d₂, h₂, hsum₂, hexact₂⟩ := shiftedTerm_add_cases hl (lh * 2 ^ (w / 2) + ll) (w / 2) k
  obtain ⟨d₃, h₃, hsum₃, hexact₃⟩ := shiftedTerm_add_cases lh ll (w / 2) k
  exact ⟨d₁ + d₂ + d₃, by omega, by omega, fun hk => by omega, fun hk => by omega⟩

theorem partialSum_le {w : Nat} (heven : 2 * (w / 2) = w) (x y : Nat) (k : Int) :
    partialSum w x y k ≤ shiftedTerm (x * y) k := by
  obtain ⟨d, -, hsum, -⟩ := partialSum_shortfall heven x y k
  exact hsum ▸ Nat.le_add_right ..

/-- Settles O31: MULSHR answers with the four partial products of the magnitudes. -/
theorem mulshrShortfallAtMostThree : Obligations.MulshrShortfallAtMostThree := by
  rintro f fb s x k rfl rfl
  have heven : 2 * (s.w / 2) = s.w := half_double s.params.width
  obtain ⟨d, hd, hsum, hw, hhalf⟩ := partialSum_shortfall heven (magNat s.signed s.a)
    (magNat s.signed s.b) s.command.s.toInt
  exact ⟨_, d, mulshrSumsShiftedPartials f fb s, hsum, hd, hw, hhalf⟩

/-! ## Unsigned operands -/

theorem magNat_unsigned {w : Nat} (x : BitVec w) : magNat false x = x.toNat := by
  simp [magNat, val]

theorem withSign_unsigned {w : Nat} (a b : BitVec w) (p : Nat) :
    withSign false a b p = BitVec.ofNat w p := by
  simp [withSign, signsDiffer, val, not_lt.mpr]

/-- Settles O42: with one operand a power of two the partial products add up to the whole shifted product,
and an unsigned result is only wrapped. -/
theorem mulByPowerOfTwoIsExact : Obligations.MulByPowerOfTwoIsExact := by
  intro f fb k s hsigned hk hb
  have heven : 2 * (s.w / 2) = s.w := half_double s.params.width
  have hmag : magNat false s.b = 2 ^ k := by
    rw [magNat_unsigned, hb, BitVec.toNat_ofNat, Nat.mod_eq_of_lt (Nat.pow_lt_pow_right one_lt_two hk)]
  rw [mulShiftsByFB f fb s, hsigned, hmag, partialSum_two_pow heven, withSign_unsigned, magNat_unsigned,
    shiftedTerm_sub]

/-! ## Negating an operand -/

theorem magNat_neg {w : Nat} {a : BitVec w} (h : a ≠ BitVec.intMin w) : magNat true (-a) = magNat true a := by
  simp [magNat, val, BitVec.toInt_neg_of_ne_intMin h]

/-- Negating an operand negates a result that takes its sign from it, and that vanishes with it (R74). -/
theorem withSign_neg {w : Nat} {a : BitVec w} (b : BitVec w) {p : Nat} (h : a ≠ BitVec.intMin w)
    (hzero : a = 0 → p = 0) : withSign true (-a) b p = -withSign true a b p := by
  by_cases ha : a = 0
  · simp [withSign, hzero ha]
  · have hne : a.toInt ≠ 0 := fun h0 => ha (BitVec.eq_of_toInt_eq (by simpa using h0))
    have hflip : signsDiffer true (-a) b = !signsDiffer true a b := by
      have hlt : decide (0 < a.toInt) = !decide (a.toInt < 0) := by
        rw [← decide_not, decide_eq_decide]
        omega
      simp [signsDiffer, val, BitVec.toInt_neg_of_ne_intMin h, hlt]
    rw [withSign, withSign, hflip]
    cases signsDiffer true a b <;> simp

@[simp] theorem magNat_zero {w : Nat} (signed : Bool) : magNat signed (0 : BitVec w) = 0 := by
  cases signed <;> simp [magNat, val]

@[simp] theorem partialSum_zero_left (w y : Nat) (k : Int) : partialSum w 0 y k = 0 := by
  simp [partialSum]

@[simp] theorem partialSum_zero_right (w x : Nat) (k : Int) : partialSum w x 0 k = 0 := by
  simp [partialSum]

@[simp] theorem quotientNat_zero_left (w fb y : Nat) : quotientNat w fb 0 y = 0 := by
  simp [quotientNat]

/-- Settles O47: the magnitudes are those of the operand not negated, and a product or quotient by a zero
operand is zero. -/
theorem negatedOperandNegatesTheResult : Obligations.NegatedOperandNegatesTheResult := by
  intro f fb wd g h hne ha hb
  have hmul : ∀ j : Fxu wd.bits, exec (.mul f fb) ⟨⟨wd, true⟩, j⟩ = .next ⟨⟨wd, true⟩, j.respond
      (.y (withSign true j.inp.command.a j.inp.command.b (partialSum wd.bits
        (magNat true j.inp.command.a) (magNat true j.inp.command.b) fb)))⟩ :=
    fun j => mulShiftsByFB f fb ⟨⟨wd, true⟩, j⟩
  have hdiv : ∀ j : Fxu wd.bits, j.inp.command.b ≠ 0 → exec (.div f fb) ⟨⟨wd, true⟩, j⟩
      = .next ⟨⟨wd, true⟩, j.respond (.y (withSign true j.inp.command.a j.inp.command.b
        (quotientNat wd.bits fb (magNat true j.inp.command.a) (magNat true j.inp.command.b))))⟩ :=
    fun j => (divFollowsTheFiveSteps f fb ⟨⟨wd, true⟩, j⟩).2
  refine ⟨⟨_, hmul g, ?_⟩, fun hb0 => ⟨_, hdiv g hb0, ?_⟩⟩
  · rw [hmul h, ha, hb, magNat_neg hne,
      withSign_neg _ hne fun h0 => by rw [h0, magNat_zero, partialSum_zero_left]]
  · rw [hdiv h (hb ▸ hb0), ha, hb, magNat_neg hne,
      withSign_neg _ hne fun h0 => by rw [h0, magNat_zero, quotientNat_zero_left]]

end Sys2Proof.Machine
end

section
/-!
PROOFS. Binary64 and back (spec/41_construct_convert.md): the three fields of a vector (R92), the round trip
of a value that a significand holds, and the error of FROMFLT.
-/

namespace Sys2Proof.Machine

/-! ## The fields -/

theorem floatSign_eq_getLsbD (x : BitVec 64) : floatSign x = x.getLsbD 63 := by
  rw [floatSign, BitVec.msb_eq_getLsbD_last]

theorem floatExp_eq_extractLsb' (x : BitVec 64) : floatExp x = (x.extractLsb' 52 11).toNat := by
  simp [floatExp, Nat.shiftRight_eq_div_pow]

theorem floatFrac_eq_extractLsb' (x : BitVec 64) : floatFrac x = (x.extractLsb' 0 52).toNat := by
  simp [floatFrac]

/-- Settles O33: decoding splits on the exponent field as R92 does. -/
theorem floatFieldsGiveTheValue : Obligations.FloatFieldsGiveTheValue := by
  rintro x sg ex fr rfl rfl rfl
  rw [← floatSign_eq_getLsbD, ← floatExp_eq_extractLsb', ← floatFrac_eq_extractLsb']
  refine ⟨fun hex => ?_, fun hex => ?_, fun hlo hhi => ?_⟩
  · rw [floatReal, floatDecode, if_neg (by omega), if_pos hex]
    by_cases hfr : floatFrac x = 0
    · rw [if_pos hfr]
    · rw [if_neg hfr]
  · rw [floatReal, floatDecode, if_pos hex]
  · rw [floatReal, floatDecode, if_neg (by omega), if_neg (by omega)]

/-! ## The round trip -/

/-- A divisor of the dividend leaves nothing to round. -/
theorem roundDivEven_of_dvd {n d : Nat} (hd : 0 < d) (h : d ∣ n) : roundDivEven n d = n / d := by
  rw [roundDivEven, Nat.mod_eq_zero_of_dvd h, if_neg (by omega)]

/-- A number of at most 53 significant bits is its own significand, scaled: nothing is rounded (R93). -/
theorem roundSignificand_exact {m k n l : Nat} (hm : m < 2 ^ 53) (hn : n = m * 2 ^ k) (hl : 2 ^ l ≤ n) :
    (roundSignificand n l : ℚ) * 2 ^ ((l : Int) - 52) = n := by
  rcases le_or_gt l 52 with h | h
  · rw [roundSignificand_of_le h, show (l : Int) - 52 = -((52 - l : Nat) : Int) by omega, zpow_neg,
      zpow_natCast]
    push_cast
    exact mul_inv_cancel_right₀ (by positivity) _
  · have hpow : 2 ^ l < 2 ^ (53 + k) := by
      calc 2 ^ l ≤ m * 2 ^ k := hn ▸ hl
        _ < 2 ^ 53 * 2 ^ k := Nat.mul_lt_mul_of_pos_right hm (by positivity)
        _ = 2 ^ (53 + k) := (pow_add ..).symm
    have hlk : l < 53 + k := (Nat.pow_lt_pow_iff_right one_lt_two).mp hpow
    have hdvd : 2 ^ (l - 52) ∣ n := hn ▸ (pow_dvd_pow 2 (by omega)).mul_left m
    rw [roundSignificand_of_lt h, roundDivEven_of_dvd (by positivity) hdvd,
      show (l : Int) - 52 = ((l - 52 : Nat) : Int) by omega, zpow_natCast]
    exact_mod_cast Nat.div_mul_cancel hdvd

/-- The encoder represents a value of at most 53 significant bits exactly. -/
theorem floatReal_floatEncode_exact {n : Int} {f m k : Nat} (hf : f < 128) (hsmall : n.natAbs < 2 ^ 64)
    (hm : m < 2 ^ 53) (hn : n.natAbs = m * 2 ^ k) :
    floatReal (floatEncode n f) = some ((n : ℚ) / 2 ^ f) := by
  by_cases h0 : n = 0
  · subst h0
    simp [floatReal, floatDecode, floatExp, floatFrac]
  · have habs : n.natAbs ≠ 0 := Int.natAbs_ne_zero.mpr h0
    have hlog : Nat.log2 n.natAbs < 64 := (Nat.log2_lt habs).mpr hsmall
    rw [floatReal_floatEncode h0 rfl (by omega) (by omega)]
    congr 1
    have hexact := roundSignificand_exact hm hn (Nat.log2_self_le habs)
    rw [sub_right_comm, zpow_sub₀ two_ne_zero, zpow_natCast, mul_assoc, ← mul_div_assoc, hexact,
      ← mul_div_assoc]
    congr 1
    rw [Nat.cast_natAbs, Int.cast_abs]
    split
    · next hneg => rw [abs_of_neg (by exact_mod_cast hneg)]; ring
    · next hpos => rw [abs_of_nonneg (by exact_mod_cast not_lt.mp hpos), one_mul]

theorem rhaReal_intCast (n : Int) : rhaReal (n : ℚ) = n := by
  have hround : ∀ j : Int, ⌊(j : ℚ) + 1 / 2⌋ = j := fun j => by
    rw [Int.floor_intCast_add]
    norm_num
  rw [rhaReal, ← Int.cast_neg, hround, hround]
  split <;> omega

/-- Every vector's value is a stored integer (R11). -/
theorem val_mem_stored {w : Nat} (signed : Bool) (x : BitVec w) :
    minStored w signed ≤ val signed x ∧ val signed x ≤ maxStored w signed := by
  have hnat : (x.toNat : Int) < 2 ^ w := by exact_mod_cast x.isLt
  have hlo := BitVec.le_toInt x
  have hhi := BitVec.toInt_lt (x := x)
  cases signed <;> simp [minStored_eq, maxStored_eq, val] <;> omega

/-- FROMFLT gives back the vector whose real value it is handed. -/
theorem fromFloat_of_floatReal {w : Nat} {signed : Bool} {f : Nat} {a : BitVec w} {x : BitVec 64}
    (h : floatReal x = some (realOf signed f a)) : fromFloat w signed f x = some a := by
  have hround : rhaReal (realOf signed f a * 2 ^ f) = val signed a := by
    rw [realOf, div_mul_cancel₀ _ (by positivity), rhaReal_intCast]
  rw [fromFloat_eq_bind, h, Option.bind_some, hround, if_pos (val_mem_stored signed a), trunc_val]

/-- Settles O37: TOFLT represents the value exactly, and FROMFLT gives back the vector of that value. -/
theorem floatRoundTripIsExact : Obligations.FloatRoundTripIsExact := by
  intro f fb fb' m k p g h hf hm hmag
  refine ⟨floatEncode (val p.signed g.inp.command.a) f, exec_result (.toflt f fb) ⟨p, g⟩, fun hfa => ?_⟩
  have hsmall : (val p.signed g.inp.command.a).natAbs < 2 ^ 64 :=
    (magNat_lt p.signed g.inp.command.a).trans_le (Nat.pow_le_pow_right two_pos (width_bits_le p.width))
  have hvalue : fromFloat p.width.bits p.signed f h.inp.command.fa = some g.inp.command.a :=
    fromFloat_of_floatReal (hfa ▸ floatReal_floatEncode_exact hf hsmall hm hmag)
  rw [exec_result]
  simp only [result, hvalue, Option.map_some, Option.getD_some]

/-! ## The error of FROMFLT -/

/-- A stored integer is the value of the vector that holds it. -/
theorem val_trunc {w : Nat} (hw : 0 < w) {signed : Bool} {n : Int} (hlo : minStored w signed ≤ n)
    (hhi : n ≤ maxStored w signed) : val signed (trunc w n) = n := by
  have hpow : (2 : Int) ^ w = 2 * 2 ^ (w - 1) := by rw [← pow_succ']; congr 1; omega
  rw [minStored_eq] at hlo
  rw [maxStored_eq] at hhi
  cases signed with
  | true =>
    simp only [if_true] at hlo hhi
    rw [val, if_pos rfl, trunc, BitVec.toInt_ofInt]
    apply Int.bmod_eq_of_le_mul_two <;> push_cast <;> omega
  | false =>
    simp only [Bool.false_eq_true, if_false] at hlo hhi
    rw [val, if_neg (by simp), trunc_toNat, Int.toNat_of_nonneg (Int.emod_nonneg _ (by positivity))]
    exact Int.emod_eq_of_lt hlo (by push_cast; omega)

/-- Rounding half away from zero moves a number by at most one half (R91). -/
theorem abs_rhaReal_sub_le (x : ℚ) : |(rhaReal x : ℚ) - x| ≤ 1 / 2 := by
  have hfloor : ∀ y : ℚ, |(⌊y + 1 / 2⌋ : ℚ) - y| ≤ 1 / 2 := fun y => by
    rw [abs_le]
    constructor <;> linarith [Int.floor_le (y + 1 / 2), Int.lt_floor_add_one (y + 1 / 2)]
  rw [rhaReal]
  split
  · exact hfloor x
  · have hneg : ((-⌊-x + 1 / 2⌋ : Int) : ℚ) - x = -((⌊-x + 1 / 2⌋ : ℚ) - -x) := by push_cast; ring
    rw [hneg, abs_neg]
    exact hfloor (-x)

/-- A result of FROMFLT is the vector whose value is the rounded product of a real operand and `2^F`. -/
theorem val_of_fromFloat_eq_some {w : Nat} (hw : 0 < w) {signed : Bool} {f : Nat} {x : BitVec 64}
    {v : BitVec w} (h : fromFloat w signed f x = some v) :
    ∃ d, floatReal x = some d ∧ val signed v = rhaReal (d * 2 ^ f) := by
  rw [fromFloat_eq_bind, Option.bind_eq_some_iff] at h
  obtain ⟨d, hd, hv⟩ := h
  obtain ⟨hrange, hv⟩ := Option.ite_none_right_eq_some.mp hv
  exact ⟨d, hd, Option.some.inj hv ▸ val_trunc hw hrange.1 hrange.2⟩

/-- The response of FROMFLT is a result only where the conversion has a value. -/
theorem fromFloat_of_result_eq_y {w : Nat} {signed : Bool} {f fb : Nat} {c : Command w} {v : BitVec w}
    (h : result signed (.fromflt f fb) c = .y v) : fromFloat w signed f c.fa = some v := by
  rw [result] at h
  cases hval : fromFloat w signed f c.fa with
  | none => simp [hval] at h
  | some u => simpa [hval] using h

/-- Settles O38: a result of FROMFLT is the rounded product, which is off by at most one half before it is
scaled down again. -/
theorem fromfltErrorAtMostHalfUlp : Obligations.FromfltErrorAtMostHalfUlp := by
  intro f fb s v h
  rw [exec_result] at h
  have hres := State.respond_inj (Host.Outcome.next.inj h)
  obtain ⟨d, hd, hv⟩ :=
    val_of_fromFloat_eq_some (width_bits_pos s.params.width) (fromFloat_of_result_eq_y hres)
  refine ⟨d, hd, ?_⟩
  have hpos : (0 : ℚ) < 2 ^ f := by positivity
  calc |realOf s.signed f v - d| = |(rhaReal (d * 2 ^ f) : ℚ) - d * 2 ^ f| / 2 ^ f := by
        rw [realOf, hv, ← abs_of_pos hpos, ← abs_div, abs_of_pos hpos, sub_div,
          mul_div_cancel_right₀ _ hpos.ne']
    _ ≤ 1 / 2 / 2 ^ f := by gcongr; exact abs_rhaReal_sub_le _
    _ = 1 / 2 ^ (f + 1) := by rw [div_div, pow_succ']

end Sys2Proof.Machine
end

section
/-!
PROOFS. The refinement (spec/43_divide.md R136, R137), on R130's loop over numbers: the error term vanishes,
the reciprocal stays below the exact one, and a divisor that is a power of two needs no round.
-/

namespace Sys2Proof.Machine

variable {w : Nat}

/-! ## One product of a round -/

/-- A product of a round, shifted by `W+1` and wrapped, is no greater than the exact one (R75, R133). -/
theorem roundProduct_le (heven : 2 * (w / 2) = w) (x y : Nat) :
    partialSum w x y ((w : Int) + 1) % 2 ^ w * 2 ^ (w + 1) ≤ x * y := by
  have hexact : shiftedTerm (x * y) ((w : Int) + 1) = x * y / 2 ^ (w + 1) := by
    exact_mod_cast shiftedTerm_natCast (x * y) (w + 1)
  calc partialSum w x y ((w : Int) + 1) % 2 ^ w * 2 ^ (w + 1)
      ≤ x * y / 2 ^ (w + 1) * 2 ^ (w + 1) := by
        gcongr
        exact (Nat.mod_le ..).trans (hexact ▸ partialSum_le heven ..)
    _ ≤ x * y := Nat.div_mul_le_self ..

/-- One round of R130's loop on numbers. -/
def roundNat (w : Nat) (p : Nat × Nat) : Nat × Nat :=
  ((p.1 + partialSum w p.1 p.2 ((w : Int) + 1) % 2 ^ w) % 2 ^ w, partialSum w p.2 p.2 ((w : Int) + 1) % 2 ^ w)

theorem roundsNat_succ (n : Nat) (p : Nat × Nat) : roundsNat w (n + 1) p = roundsNat w n (roundNat w p) :=
  rfl

theorem roundsNat_add (m n : Nat) (p : Nat × Nat) :
    roundsNat w (m + n) p = roundsNat w n (roundsNat w m p) := by
  induction m generalizing p with
  | zero => rw [Nat.zero_add, roundsNat]
  | succ m ih => rw [Nat.succ_add, roundsNat_succ, ih, roundsNat_succ]

/-! ## The error term vanishes -/

/-- A round squares the bound on the error term (R136 a). -/
theorem roundNat_error_lt (heven : 2 * (w / 2) = w) {p : Nat × Nat} {b : Nat} (h : p.2 * b < 2 ^ (w + 1)) :
    (roundNat w p).2 * (b * b) < 2 ^ (w + 1) := by
  have hsquare := roundProduct_le heven p.2 p.2
  refine Nat.lt_of_mul_lt_mul_right (a := 2 ^ (w + 1)) ?_
  calc (roundNat w p).2 * (b * b) * 2 ^ (w + 1)
      = (roundNat w p).2 * 2 ^ (w + 1) * (b * b) := Nat.mul_right_comm ..
    _ ≤ p.2 * p.2 * (b * b) := Nat.mul_le_mul_right _ hsquare
    _ = p.2 * b * (p.2 * b) := Nat.mul_mul_mul_comm ..
    _ < 2 ^ (w + 1) * 2 ^ (w + 1) := Nat.mul_lt_mul'' h h

theorem roundsNat_error_lt (heven : 2 * (w / 2) = w) (n : Nat) {p : Nat × Nat} {j : Nat}
    (h : p.2 * 2 ^ 2 ^ j < 2 ^ (w + 1)) : (roundsNat w n p).2 * 2 ^ 2 ^ (j + n) < 2 ^ (w + 1) := by
  induction n generalizing p j with
  | zero => exact h
  | succ n ih =>
    have hround := roundNat_error_lt heven h
    rw [← pow_add, ← two_mul, ← pow_succ'] at hround
    rw [roundsNat_succ, show j + (n + 1) = j + 1 + n by omega]
    exact ih hround

/-- Once `2^n` reaches `W + 1`, no error term is left after `n` rounds (R136 a). -/
theorem roundsNat_error_eq_zero (heven : 2 * (w / 2) = w) {n : Nat} {p : Nat × Nat} (hp : p.2 < 2 ^ w)
    (hn : w + 1 ≤ 2 ^ n) : (roundsNat w n p).2 = 0 := by
  have hstart : p.2 * 2 ^ 2 ^ 0 < 2 ^ (w + 1) := by
    rw [pow_zero, pow_one, pow_succ]
    exact Nat.mul_lt_mul_of_pos_right hp two_pos
  have hlt := roundsNat_error_lt heven n hstart
  rw [Nat.zero_add] at hlt
  have hpow : 2 ^ (w + 1) ≤ 2 ^ 2 ^ n := Nat.pow_le_pow_right two_pos hn
  by_contra hne
  exact absurd (hlt.trans_le hpow) (not_lt.mpr (Nat.le_mul_of_pos_left _ (Nat.pos_of_ne_zero hne)))

/-! ## Surplus rounds -/

/-- With no error term a round changes nothing (R136 b). -/
theorem roundsNat_of_error_zero {r : Nat} (hr : r < 2 ^ w) (n : Nat) : roundsNat w n (r, 0) = (r, 0) := by
  induction n with
  | zero => rfl
  | succ n ih =>
    have hround : roundNat w (r, 0) = (r, 0) := by simp [roundNat, Nat.mod_eq_of_lt hr]
    rw [roundsNat_succ, hround, ih]

/-- From the round on after which the error term has vanished, the estimate is the same. -/
theorem roundsNat_eq_of_error_zero {m n : Nat} (hmn : m ≤ n) {p : Nat × Nat}
    (hr : (roundsNat w m p).1 < 2 ^ w) (he : (roundsNat w m p).2 = 0) :
    roundsNat w n p = roundsNat w m p := by
  obtain ⟨j, rfl⟩ := Nat.exists_eq_add_of_le hmn
  have hpair : roundsNat w m p = ((roundsNat w m p).1, 0) := Prod.ext rfl he
  rw [roundsNat_add, hpair, roundsNat_of_error_zero hr]

theorem Recip.toNats_inj {p q : Recip w} : p.toNats = q.toNats ↔ p = q := by
  cases p; cases q
  simp [Recip.toNats, BitVec.toNat_inj]

/-- The rounds that R136 (a) names are enough for their width, and FP's count is no smaller. -/
theorem roundBound_spec (wd : Width) :
    wd.bits + 1 ≤ 2 ^ roundBound wd ∧ roundBound wd ≤ Config.rounds wd.bits := by
  cases wd <;> decide

/-- Settles O52: the error term has vanished after the rounds of the bound, so every later count gives the
estimate of that bound. -/
theorem surplusRoundsChangeNothing : Obligations.SurplusRoundsChangeNothing := by
  intro wd d n _ hn
  have heven : 2 * (wd.bits / 2) = wd.bits := half_double wd
  obtain ⟨hbound, hrounds⟩ := roundBound_spec wd
  have hzero : (refine (roundBound wd) (seed d)).toNats.2 = 0 := by
    rw [refine_toNats heven]
    exact roundsNat_error_eq_zero heven (seed d).e.isLt hbound
  have hsame : ∀ j, roundBound wd ≤ j → refine j (seed d) = refine (roundBound wd) (seed d) := fun j hj => by
    have hlt : (refine (roundBound wd) (seed d)).toNats.1 < 2 ^ wd.bits := BitVec.isLt _
    rw [refine_toNats heven] at hzero hlt
    rw [← Recip.toNats_inj, refine_toNats heven, refine_toNats heven,
      roundsNat_eq_of_error_zero hj hlt hzero]
  refine ⟨?_, (hsame n hn).trans (hsame _ hrounds).symm⟩
  rw [hsame n hn]
  exact BitVec.eq_of_toNat_eq hzero

/-! ## A divisor that is a power of two -/

theorem partialSum_comm (x y : Nat) (k : Int) : partialSum w x y k = partialSum w y x k := by
  simp only [partialSum, Nat.mul_comm (y / _), Nat.mul_comm (y % _)]
  omega

/-- A power of two is normalised to msb, its seed has no error term, and the final shift moves the dividend by
`k - FB` (R136 e). -/
theorem quotientNat_two_pow (heven : 2 * (w / 2) = w) (fb x : Nat) {k : Nat} (hk : k < w) :
    quotientNat w fb x (2 ^ k) = x * 2 ^ fb / 2 ^ k % 2 ^ w := by
  have hd : 2 ^ k * 2 ^ (w - 1 - k) = 2 ^ (w - 1) := by rw [← pow_add]; congr 1; omega
  have hpow : 2 ^ w = 2 ^ (w - 1) * 2 := by rw [← pow_succ]; congr 1; omega
  have he : (2 ^ w - 2 ^ (w - 1)) * 2 % 2 ^ w = 0 := by
    rw [show 2 ^ w - 2 ^ (w - 1) = 2 ^ (w - 1) by omega, ← hpow, Nat.mod_self]
  have hr : 2 ^ (w - 1) < 2 ^ w := Nat.pow_lt_pow_right one_lt_two (by omega)
  have hshift : 2 * (w : Int) - 1 - fb - ((w - 1 - k : Nat) : Int) - 1 - ((w - 1 : Nat) : Int)
      = (k : Int) - fb := by omega
  simp only [quotientNat, Nat.log2_two_pow, hd, he, roundsNat_of_error_zero hr, if_true]
  rw [partialSum_comm, partialSum_two_pow heven, hshift, shiftedTerm_sub]

theorem withSign_mod_two_pow (signed : Bool) (a b : BitVec w) (p : Nat) :
    withSign signed a b (p % 2 ^ w) = withSign signed a b p := by
  have hwrap : BitVec.ofNat w (p % 2 ^ w) = BitVec.ofNat w p := BitVec.eq_of_toNat_eq (by simp)
  rw [withSign, hwrap, withSign]

theorem magNat_eq_zero_iff (signed : Bool) (x : BitVec w) : magNat signed x = 0 ↔ x = 0 := by
  rw [← mag_toNat, mag_toNat_eq_zero_iff]

/-- Settles O51: the four steps on a power of two, whose exponent is below the width. -/
theorem divByPowerOfTwoIsExact : Obligations.DivByPowerOfTwoIsExact := by
  intro f fb k s hb
  have heven : 2 * (s.w / 2) = s.w := half_double s.params.width
  have hne : s.b ≠ 0 := (magNat_eq_zero_iff s.signed s.b).not.mp (hb ▸ (Nat.two_pow_pos k).ne')
  have hk : k < s.w := (Nat.pow_lt_pow_iff_right one_lt_two).mp (hb ▸ magNat_lt s.signed s.b)
  rw [(divFollowsTheFiveSteps f fb s).2 hne, hb, quotientNat_two_pow heven fb _ hk, withSign_mod_two_pow]

/-! ## The reciprocal stays below the exact one -/

/-- The reciprocal `rn` and the error term `en` of R132 satisfy `rn * dn + en ≤ 1`, where `dn` is the
normalised divisor; multiplied by `2^(2W+2)`. -/
def belowReciprocal (w d : Nat) (p : Nat × Nat) : Prop :=
  8 * (p.1 * d) + p.2 * 2 ^ (w + 1) ≤ 2 ^ (w + 1) * 2 ^ (w + 1)

theorem belowReciprocal_seed (hw : 0 < w) {d : Nat} (hd : d ≤ 2 ^ w) :
    belowReciprocal w d (2 ^ (w - 1), (2 ^ w - d) * 2 % 2 ^ w) := by
  have hpow : 2 ^ (w + 1) = 4 * 2 ^ (w - 1) := by rw [show w + 1 = w - 1 + 2 by omega, pow_add]; ring
  have hsum : 2 * d + (2 ^ w - d) * 2 = 2 ^ (w + 1) := by rw [pow_succ]; omega
  calc 8 * (2 ^ (w - 1) * d) + (2 ^ w - d) * 2 % 2 ^ w * 2 ^ (w + 1)
      ≤ 8 * (2 ^ (w - 1) * d) + (2 ^ w - d) * 2 * 2 ^ (w + 1) := by gcongr; exact Nat.mod_le ..
    _ = (2 * d + (2 ^ w - d) * 2) * 2 ^ (w + 1) := by rw [hpow]; ring
    _ = 2 ^ (w + 1) * 2 ^ (w + 1) := by rw [hsum]

/-- A round keeps the bound: it multiplies `rn` by `1 + en` at most and squares `en` at least, so that
`rn * dn` stays below `(1 - en) * (1 + en)`. -/
theorem belowReciprocal_round (heven : 2 * (w / 2) = w) {d : Nat} {p : Nat × Nat}
    (h : belowReciprocal w d p) : belowReciprocal w d (roundNat w p) := by
  obtain ⟨r, e⟩ := p
  have hr : (roundNat w (r, e)).1 * 2 ^ (w + 1) ≤ r * (2 ^ (w + 1) + e) := by
    calc (roundNat w (r, e)).1 * 2 ^ (w + 1)
        ≤ (r + partialSum w r e ((w : Int) + 1) % 2 ^ w) * 2 ^ (w + 1) := by gcongr; exact Nat.mod_le ..
      _ ≤ r * 2 ^ (w + 1) + r * e := by
          rw [Nat.add_mul]
          exact Nat.add_le_add_left (roundProduct_le heven r e) _
      _ = r * (2 ^ (w + 1) + e) := (Nat.mul_add ..).symm
  have he : (roundNat w (r, e)).2 * 2 ^ (w + 1) ≤ e * e := roundProduct_le heven e e
  unfold belowReciprocal at h ⊢
  dsimp only at h
  generalize (roundNat w (r, e)).1 = r' at hr ⊢
  generalize (roundNat w (r, e)).2 = e' at he ⊢
  have hpos : 0 < 2 ^ (w + 1) := Nat.two_pow_pos _
  generalize 2 ^ (w + 1) = M at h hr he hpos ⊢
  refine Nat.le_of_mul_le_mul_right (c := M) ?_ hpos
  have hrd : 8 * d * (r' * M) ≤ 8 * d * (r * (M + e)) := Nat.mul_le_mul_left _ hr
  have hem : e' * M * M ≤ e * e * M := Nat.mul_le_mul_right _ he
  have hscaled : (8 * (r * d) + e * M) * (M + e) ≤ M * M * (M + e) := Nat.mul_le_mul_right _ h
  linarith

theorem belowReciprocal_rounds (heven : 2 * (w / 2) = w) {d : Nat} (n : Nat) {p : Nat × Nat}
    (h : belowReciprocal w d p) : belowReciprocal w d (roundsNat w n p) := by
  induction n generalizing p with
  | zero => exact h
  | succ n ih => exact ih (belowReciprocal_round heven h)

/-- The estimate never exceeds the reciprocal of the normalised divisor: `rn ≤ 1 / dn` (R136 d). -/
theorem belowReciprocal.mul_le (hw : 0 < w) {d : Nat} {p : Nat × Nat} (h : belowReciprocal w d p) :
    p.1 * d ≤ 2 ^ (2 * w - 1) := by
  have hpow : 2 ^ (w + 1) * 2 ^ (w + 1) = 8 * 2 ^ (2 * w - 1) := by
    rw [← pow_add, show w + 1 + (w + 1) = 3 + (2 * w - 1) by omega, pow_add]
    norm_num
  unfold belowReciprocal at h
  omega

/-! ## The quotient -/

/-- The floor of a product by an estimate below the reciprocal does not exceed the exact quotient. -/
theorem estimate_div_le {r x y lz fb m : Nat} (hy : 0 < y) (h : r * (y * 2 ^ lz) ≤ 2 ^ m) :
    r * x * 2 ^ (fb + lz) / 2 ^ m ≤ x * 2 ^ fb / y := by
  rw [Nat.le_div_iff_mul_le hy]
  refine Nat.le_of_mul_le_mul_right (c := 2 ^ m) ?_ (by positivity)
  calc r * x * 2 ^ (fb + lz) / 2 ^ m * y * 2 ^ m
      = r * x * 2 ^ (fb + lz) / 2 ^ m * 2 ^ m * y := Nat.mul_right_comm ..
    _ ≤ r * x * 2 ^ (fb + lz) * y := Nat.mul_le_mul_right _ (Nat.div_mul_le_self ..)
    _ = x * 2 ^ fb * (r * (y * 2 ^ lz)) := by rw [pow_add]; ring
    _ ≤ x * 2 ^ fb * 2 ^ m := Nat.mul_le_mul_left _ h

/-- The quotient on numbers does not exceed the exact one, in the case without the correction of `d = msb`. -/
theorem quotientNat_le_of_ne_msb (heven : 2 * (w / 2) = w) (hw : 0 < w) (fb x : Nat) {y : Nat} (hy : y ≠ 0)
    (hyw : y < 2 ^ w) (hmsb : y * 2 ^ (w - 1 - Nat.log2 y) ≠ 2 ^ (w - 1)) :
    quotientNat w fb x y ≤ x * 2 ^ fb / y := by
  have hseed := belowReciprocal_seed hw (mul_two_pow_lt_of_log2 hy hyw).le
  have hbelow := belowReciprocal_rounds heven (w - 1) hseed
  have hshift : 2 * (w : Int) - 1 - fb - ((w - 1 - Nat.log2 y : Nat) : Int) - 0
      = ((2 * w - 1 : Nat) : Int) - ((fb + (w - 1 - Nat.log2 y) : Nat) : Int) := by omega
  simp only [quotientNat, hmsb, if_false]
  rw [hshift]
  calc _ ≤ _ := Nat.mod_le ..
    _ ≤ _ := partialSum_le heven ..
    _ = _ := shiftedTerm_sub ..
    _ ≤ _ := estimate_div_le (Nat.pos_of_ne_zero hy) (hbelow.mul_le hw)

/-- The quotient on numbers never exceeds the exact one (R137). -/
theorem quotientNat_le (heven : 2 * (w / 2) = w) (hw : 0 < w) (fb x : Nat) {y : Nat} (hy : y ≠ 0)
    (hyw : y < 2 ^ w) : quotientNat w fb x y ≤ x * 2 ^ fb / y := by
  by_cases hmsb : y * 2 ^ (w - 1 - Nat.log2 y) = 2 ^ (w - 1)
  · obtain ⟨k, hk, rfl⟩ := (Nat.dvd_prime_pow Nat.prime_two).mp (Dvd.intro _ hmsb)
    rw [quotientNat_two_pow heven fb x (by omega)]
    exact Nat.mod_le ..
  · exact quotientNat_le_of_ne_msb heven hw fb x hy hyw hmsb

/-- Settles O50: DIV's magnitude is the quotient on numbers. -/
theorem quotientNeverExceedsTheExact : Obligations.QuotientNeverExceedsTheExact := by
  intro f fb s hb _
  have heven : 2 * (s.w / 2) = s.w := half_double s.params.width
  exact ⟨_, (divFollowsTheFiveSteps f fb s).2 hb, quotientNat_le heven (width_bits_pos s.params.width) fb _
    ((magNat_eq_zero_iff s.signed s.b).not.mpr hb) (magNat_lt s.signed s.b)⟩

end Sys2Proof.Machine
end

section
/-!
PROOFS. The laws of comparison (spec/44_compare.md R155 to R157): complementary orderings, and agreement with
the real values inside the range of R7.
-/

namespace Sys2Proof.Machine

variable {w : Nat}

/-! ## Complementary and exchanged orderings -/

theorem greaterEqRel_eq_not (signed : Bool) (f fb : Nat) (a b : BitVec w) :
    greaterEqRel signed f fb a b = !lessRel signed f fb a b := by
  rw [Bool.eq_not, ne_eq, Bool.eq_iff_iff, greaterEqRel_iff, lessRel_iff]
  omega

theorem lessEqRel_eq_not (signed : Bool) (f fb : Nat) (a b : BitVec w) :
    lessEqRel signed f fb a b = !greaterRel signed f fb a b := by
  rw [Bool.eq_not, ne_eq, Bool.eq_iff_iff, lessEqRel_iff, greaterRel_iff]
  omega

theorem lessRel_swap (signed : Bool) (f fb : Nat) (a b : BitVec w) :
    lessRel signed fb f b a = greaterRel signed f fb a b := by
  rw [Bool.eq_iff_iff, lessRel_iff, greaterRel_iff, eq_comm]

theorem truth_not (p : Bool) : truth w (!p) = if p then 0 else 1 := by
  cases p <;> rfl

/-- Settles O56: GE and LE answer with the negations of LT and GT, and the exchanged LT is GT. -/
theorem orderingsAreComplementary : Obligations.OrderingsAreComplementary := by
  intro f fb p g h ha hb
  refine ⟨lessRel p.signed f fb g.inp.command.a g.inp.command.b,
    greaterRel p.signed f fb g.inp.command.a g.inp.command.b, exec_result (.lt f fb) ⟨p, g⟩, ?_,
    exec_result (.gt f fb) ⟨p, g⟩, ?_, ?_⟩
  · rw [exec_result, result, greaterEqRel_eq_not, truth_not]
  · rw [exec_result, result, lessEqRel_eq_not, truth_not]
  · rw [← lessRel_swap, ← ha, ← hb]
    exact exec_result (.lt fb f) ⟨p, h⟩

/-! ## Shifts as arithmetic on values -/

theorem countInRange_le {signed : Bool} {f : Nat} (h : countInRange w signed f) : f ≤ w := by
  cases signed <;> simp [countInRange] at h <;> omega

theorem countInRange_mono {signed : Bool} {f g : Nat} (hfg : f ≤ g) (h : countInRange w signed g) :
    countInRange w signed f := by
  cases signed <;> simp [countInRange] at h ⊢ <;> omega

theorem val_injective (signed : Bool) {x y : BitVec w} (h : val signed x = val signed y) : x = y := by
  rw [← trunc_val signed x, h, trunc_val]

/-- Zero is a stored integer of every format. -/
theorem stored_zero (w : Nat) (signed : Bool) : minStored w signed ≤ 0 ∧ 0 ≤ maxStored w signed := by
  simpa [val] using val_mem_stored signed (0 : BitVec w)

/-- A right shift by a count in range takes the floor of the value (R70, R152). -/
theorem val_nativeShift (hw : 0 < w) {signed : Bool} {k : Nat} (h : countInRange w signed k) (x : BitVec w) :
    val signed (nativeShift signed x k) = val signed x / 2 ^ k := by
  rcases (countInRange_le h).lt_or_eq with hk | rfl
  · have hpos : (1 : Int) ≤ 2 ^ k := one_le_pow₀ (by norm_num)
    obtain ⟨hlo, hhi⟩ := val_mem_stored signed x
    obtain ⟨hmin, hmax⟩ := stored_zero w signed
    have hpow : ((2 ^ k : Nat) : Int) = 2 ^ k := by push_cast; rfl
    rw [← ssr_eq_nativeShift, ssr_right signed x hk, hpow, val_trunc hw]
    · exact Int.le_ediv_of_mul_le (by positivity) (by nlinarith)
    · exact Int.ediv_le_of_le_mul (by positivity) (by nlinarith)
  · cases signed with
    | true => simp [countInRange] at h; omega
    | false =>
      have hlt : (x.toNat : Int) < 2 ^ k := by exact_mod_cast x.isLt
      rw [nativeShift_of_large _ _ (by simp)]
      simp [val, Int.ediv_eq_zero_of_lt (Int.natCast_nonneg _) hlt]

/-- A left shift multiplies the value, and wraps. -/
theorem shiftLeft_eq_trunc (signed : Bool) (x : BitVec w) (k : Nat) :
    x <<< k = trunc w (val signed x * 2 ^ k) := by
  have hpow : BitVec.ofInt w (2 ^ k) = BitVec.twoPow w k := by
    rw [← Nat.cast_ofNat, ← Nat.cast_pow, BitVec.ofInt_natCast]
    exact BitVec.eq_of_toNat_eq (by simp [← Nat.pow_mod])
  rw [trunc, BitVec.ofInt_mul, hpow, ← trunc, trunc_val, BitVec.shiftLeft_eq_mul_twoPow]

theorem nativeShift_neg (signed : Bool) (x : BitVec w) (k : Nat) :
    nativeShift signed x (-(k : Int)) = x <<< k := by
  rw [← ssr_eq_nativeShift, ← ssl_natCast_eq_shiftLeft signed, ssl]

/-- What a right shift by a count in range drops of the value, kept as a vector (R152). -/
theorem sub_shiftLeft_nativeShift_toNat (hw : 0 < w) {signed : Bool} {k : Nat} (h : countInRange w signed k)
    (x : BitVec w) : ((x - nativeShift signed x k <<< k).toNat : Int) = val signed x % 2 ^ k := by
  have hvector : x - nativeShift signed x k <<< k = trunc w (val signed x % 2 ^ k) := by
    have hx : x = trunc w (val signed x) := (trunc_val signed x).symm
    rw [shiftLeft_eq_trunc signed, val_nativeShift hw h, Int.emod_def, mul_comm (2 ^ k : Int)]
    nth_rw 1 [hx]
    simp only [trunc, sub_eq_add_neg, BitVec.ofInt_add, BitVec.ofInt_neg]
  have hnonneg : 0 ≤ val signed x % 2 ^ k := Int.emod_nonneg _ (by positivity)
  have hlt : val signed x % 2 ^ k < 2 ^ w :=
    (Int.emod_lt_of_pos _ (by positivity)).trans_le (pow_le_pow_right₀ (by norm_num) (countInRange_le h))
  rw [hvector, trunc_toNat, Nat.cast_pow, Nat.cast_ofNat, Int.emod_eq_of_lt hnonneg hlt,
    Int.toNat_of_nonneg hnonneg]

/-! ## EQ -/

/-- The finer operand reproduces the coarser one and is reproduced by it exactly when the values agree. -/
theorem reproduce_iff (hw : 0 < w) {signed : Bool} {k : Nat} (h : countInRange w signed k) (a b : BitVec w) :
    (nativeShift signed b k = a ∧ a <<< k = b) ↔ val signed b = val signed a * 2 ^ k := by
  constructor
  · rintro ⟨rfl, hb⟩
    have hdropped : 0 = val signed b % 2 ^ k := by simpa [hb] using sub_shiftLeft_nativeShift_toNat hw h b
    rw [val_nativeShift hw h, Int.ediv_mul_cancel (Int.dvd_of_emod_eq_zero hdropped.symm)]
  · intro hval
    refine ⟨val_injective signed ?_, ?_⟩
    · rw [val_nativeShift hw h, hval, Int.mul_ediv_cancel _ (by positivity)]
    · rw [shiftLeft_eq_trunc signed, ← hval, trunc_val]

theorem realOf_eq_iff {signed : Bool} {f d : Nat} {a b : BitVec w} :
    realOf signed f a = realOf signed (f + d) b ↔ val signed b = val signed a * 2 ^ d := by
  rw [realOf, realOf, pow_add, div_eq_div_iff (by positivity) (by positivity), ← mul_assoc, mul_right_comm,
    mul_left_inj' (by positivity), eq_comm]
  norm_cast

theorem equalRel_comm (signed : Bool) (f fb : Nat) (a b : BitVec w) :
    equalRel signed f fb a b = equalRel signed fb f b a :=
  Bool.and_comm ..

theorem equalRel_iff_of_le (hw : 0 < w) {signed : Bool} {f fb : Nat} (hle : f ≤ fb)
    (hfb : countInRange w signed fb) (a b : BitVec w) :
    equalRel signed f fb a b = true ↔ realOf signed f a = realOf signed fb b := by
  obtain ⟨d, rfl⟩ := Nat.exists_eq_add_of_le hle
  have hd : ((f + d : Nat) : Int) - f = d := by omega
  have hd' : (f : Int) - ((f + d : Nat) : Int) = -(d : Int) := by omega
  rw [equalRel_iff, hd, hd', nativeShift_neg, realOf_eq_iff,
    reproduce_iff hw (countInRange_mono (Nat.le_add_left d f) hfb)]

/-- EQ is equality of the real values inside the range (R157). -/
theorem equalRel_iff_real (hw : 0 < w) {signed : Bool} {f fb : Nat} (hf : countInRange w signed f)
    (hfb : countInRange w signed fb) (a b : BitVec w) :
    equalRel signed f fb a b = true ↔ realOf signed f a = realOf signed fb b := by
  rcases le_total f fb with hle | hle
  · exact equalRel_iff_of_le hw hle hfb a b
  · rw [equalRel_comm, equalRel_iff_of_le hw hle hf b a, eq_comm]

/-! ## The orderings -/

/-- The aligned remainder is the part of the value below the radix point, which is then at bit `W` (R152). -/
theorem nativeFraction_toNat (hw : 0 < w) {signed : Bool} {f : Nat} (h : countInRange w signed f)
    (x : BitVec w) : ((nativeFraction signed f x).toNat : Int) = val signed x % 2 ^ f * 2 ^ (w - f) := by
  have hfw := countInRange_le h
  have hrem := sub_shiftLeft_nativeShift_toNat hw h x
  have hlt : val signed x % 2 ^ f < 2 ^ f := Int.emod_lt_of_pos _ (by positivity)
  have hfits : (x - nativeShift signed x f <<< f).toNat * 2 ^ (w - f) < 2 ^ w := by
    have hpow : 2 ^ w = 2 ^ f * 2 ^ (w - f) := by rw [← pow_add]; congr 1; omega
    rw [hpow]
    exact Nat.mul_lt_mul_of_pos_right (by exact_mod_cast hrem ▸ hlt) (by positivity)
  rw [nativeFraction, nativeIntegral, nativeShift_neg, show (f : Int) - w = -((w - f : Nat) : Int) by omega,
    nativeShift_neg, BitVec.toNat_shiftLeft, Nat.shiftLeft_eq, Nat.mod_eq_of_lt hfits, ← hrem]
  push_cast
  rfl

/-- The real value, scaled by `2^W`, is its two parts put together again (R152). -/
theorem realOf_eq_parts (hw : 0 < w) {signed : Bool} {f : Nat} (h : countInRange w signed f) (x : BitVec w) :
    realOf signed f x = ((val signed (nativeIntegral signed f x) * 2 ^ w
      + (nativeFraction signed f x).toNat : Int) : ℚ) / 2 ^ w := by
  have hpow : (2 : Int) ^ w = 2 ^ f * 2 ^ (w - f) := by
    rw [← pow_add, Nat.add_sub_of_le (countInRange_le h)]
  have hparts : val signed (nativeIntegral signed f x) * 2 ^ w + (nativeFraction signed f x).toNat
      = val signed x * 2 ^ (w - f) := by
    rw [nativeIntegral, val_nativeShift hw h, nativeFraction_toNat hw h, hpow, ← mul_assoc, ← add_mul,
      Int.ediv_mul_add_emod]
  have hpow' : (2 : ℚ) ^ w = 2 ^ f * 2 ^ (w - f) := by exact_mod_cast hpow
  rw [hparts, realOf, hpow']
  push_cast
  rw [mul_div_mul_right _ _ (by positivity)]

/-- Numbers of two digits are compared by the first, and on a tie by the second. -/
theorem two_digits_lt_iff {x y : Int} {u v m : Nat} (hu : u < m) (hv : v < m) :
    x * m + u < y * m + v ↔ x < y ∨ (x = y ∧ u < v) := by
  have hu' : (u : Int) < m := by exact_mod_cast hu
  have hv' : (v : Int) < m := by exact_mod_cast hv
  rcases lt_trichotomy x y with h | rfl | h
  · have hdigit : (x + 1) * m ≤ y * m := by gcongr; omega
    constructor
    · exact fun _ => .inl h
    · intro _; rw [add_mul] at hdigit; omega
  · omega
  · have hdigit : (y + 1) * m ≤ x * m := by gcongr; omega
    rw [add_mul] at hdigit
    omega

/-- LT is the order of the real values inside the range (R157). -/
theorem lessRel_iff_real (hw : 0 < w) {signed : Bool} {f fb : Nat} (hf : countInRange w signed f)
    (hfb : countInRange w signed fb) (a b : BitVec w) :
    lessRel signed f fb a b = true ↔ realOf signed f a < realOf signed fb b := by
  rw [lessRel_iff, realOf_eq_parts hw hf, realOf_eq_parts hw hfb, div_lt_div_iff_of_pos_right (by positivity),
    Int.cast_lt]
  exact_mod_cast (two_digits_lt_iff (BitVec.isLt _) (BitVec.isLt _)).symm

theorem greaterRel_iff_real (hw : 0 < w) {signed : Bool} {f fb : Nat} (hf : countInRange w signed f)
    (hfb : countInRange w signed fb) (a b : BitVec w) :
    greaterRel signed f fb a b = true ↔ realOf signed fb b < realOf signed f a := by
  rw [← lessRel_swap, lessRel_iff_real hw hfb hf]

theorem lessEqRel_iff_real (hw : 0 < w) {signed : Bool} {f fb : Nat} (hf : countInRange w signed f)
    (hfb : countInRange w signed fb) (a b : BitVec w) :
    lessEqRel signed f fb a b = true ↔ realOf signed f a ≤ realOf signed fb b := by
  rw [lessEqRel_eq_not, Bool.not_eq_true', ← not_lt, ← greaterRel_iff_real hw hf hfb, Bool.not_eq_true]

theorem greaterEqRel_iff_real (hw : 0 < w) {signed : Bool} {f fb : Nat} (hf : countInRange w signed f)
    (hfb : countInRange w signed fb) (a b : BitVec w) :
    greaterEqRel signed f fb a b = true ↔ realOf signed fb b ≤ realOf signed f a := by
  rw [greaterEqRel_eq_not, Bool.not_eq_true', ← not_lt, ← lessRel_iff_real hw hf hfb, Bool.not_eq_true]

/-- Settles O55: EQ and LT are equality and order of the real values, and the other three orderings are their
exchange and negations. -/
theorem comparisonsAgreeWithRealOrder : Obligations.ComparisonsAgreeWithRealOrder := by
  rintro f fb s x y hf hfb rfl rfl
  have hw : 0 < s.w := width_bits_pos s.params.width
  refine ⟨?_, ?_, ?_, ?_, ?_⟩
  · rw [exec_result, result, truth_of_iff (equalRel_iff_real hw hf hfb ..)]
  · rw [exec_result, result, truth_of_iff (lessRel_iff_real hw hf hfb ..)]
  · rw [exec_result, result, truth_of_iff (lessEqRel_iff_real hw hf hfb ..)]
  · rw [exec_result, result, truth_of_iff (greaterRel_iff_real hw hf hfb ..)]
  · rw [exec_result, result, truth_of_iff (greaterEqRel_iff_real hw hf hfb ..)]

end Sys2Proof.Machine
end
